-- ==== Sys2Proof/Word.lean ====
section
/-! DEFINITION. The word types of the block (00_scope.md R8): bytes are 8 bits wide and symbol values
5 bits wide. A bit of a bit sequence (00_scope.md R10) is a `Bool`. Lengths, indices and bit counts are
exact natural numbers (00_scope.md R13) and so are plain `Nat`s. -/

namespace Sys2Proof

/-- A byte: 8 bits (R8). -/
abbrev Byte := BitVec 8

/-- A symbol value: 5 bits, 0 to 31 (R8). -/
abbrev SymVal := BitVec 5

/-- One bit of a bit sequence (R10). -/
abbrev Bit := Bool

end Sys2Proof
end

