-- ==== Sys2Proof/Syntax.lean ====
section
/-! DEFINITION. The commands, the request triple, and the names of what can be wrong with them. -/

namespace Sys2Proof

/-- The two commands of the block (30_encoding.md R61), one constructor per row of the opcode table.
Neither has a field of its own: the operands IN_LEN and IN are request registers (R64). -/
inductive Instr where
  /-- ENCODE, CMD = 0x01 (41_encode.md R100). -/
  | encode
  /-- DECODE, CMD = 0x02 (42_decode.md R120). -/
  | decode
deriving DecidableEq, Repr

/-- Why a command word is no command. -/
inductive DecodeReject where
  /-- The RSVD field, bits 7..2, is not zero (30_encoding.md R63). -/
  | reservedField
  /-- The OP field, bits 1..0, is 0b00 or 0b11 (30_encoding.md R62). -/
  | reservedOp
deriving DecidableEq, Repr

/-- The two error kinds of the block (60_exceptions.md R150), with what each one records. -/
inductive CodecError where
  /-- An input byte outside the alphabet, and its index counted from 0 (R151). -/
  | invalidSymbol (c : Byte) (pos : Nat)
  /-- Every byte is a symbol and some leftover bit is 1 (R152). -/
  | invalidPadding
deriving DecidableEq, Repr

/-- A request: the triple (CMD, IN_LEN, IN) of 10_state.md R20. -/
structure Request where
  cmd   : Byte
  inLen : Nat
  bytes : List Byte
deriving DecidableEq, Repr

end Sys2Proof
end

