-- ==== Sys2Proof/Machine/State.lean ====
section
/-! DEFINITION. The state of one instance of the block and of the host beside it, as plain data; the ways
a step can stop; the state after reset. The symbol ROM is no field: no command, host move or reset can
change it (10_state.md R28, 40_alphabet_rom.md R85), and instances share it (60_exceptions.md R164); it is
the constant `Machine.rom`. -/

namespace Sys2Proof.Machine

/-- The faults. Both are raised by a host read (never by a command), and both are safe: the model
stops where the spec gives the read no value. -/
inductive Fault where
  /-- The host reads a response register while RESP_VALID = 0 (10_state.md R32, I3). Raised by the
  host's read moves. Safe. -/
  | responseNotValid
  /-- The host reads OUT[j] of a valid response with j ≥ OUT_LEN: OUT has the indices 0 to OUT_LEN − 1
  only (20_memory.md R40). Raised by the host's read of OUT. Safe. -/
  | outIndexOutOfRange
deriving DecidableEq, Repr

/-- The refusals: requests the spec gives no meaning (10_state.md R31). All are safe: no claim about
what the block would do can be proved. -/
inductive Refusal where
  /-- A command whose arm in `exec` has no meaning yet. Raised by `exec` only. Safe. -/
  | notModelled (mnemonic : String)
  /-- The command word is reserved (30_encoding.md R62, R63). Raised by the fetch of CMD. Safe. -/
  | reservedCommand (why : DecodeReject)
  /-- IN_LEN > MAX_IN_LEN (30_encoding.md R65). Raised by both commands. Safe. -/
  | inputTooLong
deriving DecidableEq, Repr

/-- A response: the tuple (STATUS, OUT_LEN, OUT, ERR_BYTE, ERR_POS) of 10_state.md R20 and R25. -/
structure Response where
  status  : BitVec 2
  outLen  : Nat
  out     : List Byte
  errByte : Byte
  errPos  : Nat
deriving DecidableEq, Repr

/-- The moves of the host agent (10_state.md R20, R24 to R26; 70_reset_and_hazards.md R170, R173, R174). -/
inductive HostMove where
  /-- Write CMD (R24). -/
  | writeCmd (c : Byte)
  /-- Write IN_LEN (R24). -/
  | writeInLen (n : Nat)
  /-- Write the input byte sequence IN, from index 0 (R24). -/
  | writeIn (bytes : List Byte)
  /-- Issue the request now held in CMD, IN_LEN and IN (R26). -/
  | issue
  /-- Wait until RESP_VALID = 1 is observed (R49, R174). -/
  | await
  /-- Read RESP_VALID (R26). -/
  | readRespValid
  /-- Read STATUS (R25). -/
  | readStatus
  /-- Read OUT_LEN (R25). -/
  | readOutLen
  /-- Read the byte OUT[j] (R25). -/
  | readOut (j : Nat)
  /-- Read ERR_BYTE (R25). -/
  | readErrByte
  /-- Read ERR_POS (R25). -/
  | readErrPos
  /-- Assert reset (R170, R171). -/
  | reset
deriving DecidableEq, Repr

/-- A value the host has read, under the name of the register it came from. -/
inductive HostDatum where
  | respValid (b : Bool)
  | status (c : BitVec 2)
  | outLen (n : Nat)
  | out (j : Nat) (b : Byte)
  | errByte (b : Byte)
  | errPos (n : Nat)
deriving DecidableEq, Repr

/-- Who moves next. -/
inductive Turn where
  /-- The block performs the request in flight. -/
  | block
  /-- The host makes its next move; `rest` are the moves after it. -/
  | host (m : HostMove) (rest : List HostMove)
  /-- Nobody: no request is in flight and the host does nothing, or waits for a response. -/
  | idle
  /-- Nobody, for good: a request was refused (10_state.md R31). -/
  | stopped (r : Refusal)
deriving DecidableEq, Repr

/-- The block, its parameter, and the host. -/
structure State where
  /-- MAX_IN_LEN, the block's parameter: a natural number, or unbounded (00_scope.md R7). No step
  changes it. -/
  maxInLen : Option Nat
  /-- CMD, 8 bits (10_state.md R24). -/
  cmd : Byte
  /-- IN_LEN (R24). -/
  inLen : Nat
  /-- IN: the bytes the host has written, from index 0 (R24). A byte at an index past them is
  unspecified, see `memReadIn`. -/
  inBuf : List Byte
  /-- RESP_VALID, 1 bit (10_state.md R26). -/
  respValid : Bool
  /-- STATUS, 2 bits (10_state.md R25). Like the four registers after it, it has no value while
  RESP_VALID = 0: what stands in the field then cannot be read (R32). -/
  status : BitVec 2
  /-- OUT_LEN (R25). -/
  outLen : Nat
  /-- OUT (R25). -/
  outBuf : List Byte
  /-- ERR_BYTE, 8 bits (R25). -/
  errByte : Byte
  /-- ERR_POS (R25). -/
  errPos : Nat
  /-- ACC, 12 bits (10_state.md R27). -/
  acc : BitVec 12
  /-- NBITS, 4 bits, values 0 to 12 (R27). -/
  nbits : BitVec 4
  /-- IDX (R27). -/
  idx : Nat
  /-- OPOS (R27). -/
  opos : Nat
  /-- A request has been issued and not answered; false: the block is idle (70_reset_and_hazards.md
  R170, R171). -/
  inFlight : Bool
  /-- The refusal mark, never cleared (10_state.md R31). -/
  refusalMark : Option Refusal
  /-- The host agent: the moves it is still to make, next one first (R20). -/
  host : List HostMove
  /-- The host agent: the values it has read, oldest first (R174). -/
  seen : List HostDatum
  /-- The model's own: numbers the contents of IN, so that the unspecified bytes of one content tell
  nothing about those of another. -/
  inEpoch : Nat
  /-- The model's own: numbers the free values of the internal registers. -/
  freeCount : Nat
deriving DecidableEq, Repr

/-- The state after reset of a block with the given MAX_IN_LEN (70_reset_and_hazards.md R170, 10_state.md
R30): RESP_VALID = 0, idle, no refusal mark. The registers R30 leaves unspecified or without a value are
zero and empty here (DESIGN CHOICE, notes/assumptions/1.md). -/
def State.resetWith (maxInLen : Option Nat) : State where
  maxInLen := maxInLen
  cmd := 0
  inLen := 0
  inBuf := []
  respValid := false
  status := 0
  outLen := 0
  outBuf := []
  errByte := 0
  errPos := 0
  acc := 0
  nbits := 0
  idx := 0
  opos := 0
  inFlight := false
  refusalMark := none
  host := []
  seen := []
  inEpoch := 0
  freeCount := 0

/-- The machine right after reset, with MAX_IN_LEN unbounded (DESIGN CHOICE, notes/assumptions/2.md). -/
def State.reset : State := State.resetWith none

end Sys2Proof.Machine
end

