-- ==== Sys2Proof/Machine/Flags.lean ====
section
/-! DEFINITION. The block has no flags (10_state.md R23); the outcome of a transaction is the STATUS code
and the registers beside it. This file gives the codes and the content of each response. -/

namespace Sys2Proof.Machine

/-- STATUS code 0, OK (30_encoding.md R66). -/
def statusOk : BitVec 2 := 0

/-- STATUS code 1, INVALID_SYMBOL (R66). -/
def statusInvalidSymbol : BitVec 2 := 1

/-- STATUS code 2, INVALID_PADDING (R66). -/
def statusInvalidPadding : BitVec 2 := 2

/-- The response registers on success (10_state.md R25). -/
def okResponse (out : List Byte) : Response :=
  { status := statusOk, outLen := out.length, out := out, errByte := 0, errPos := 0 }

/-- The response registers on an error (10_state.md R25, 60_exceptions.md R150, R155). -/
def errorResponse : CodecError → Response
  | .invalidSymbol c pos =>
    { status := statusInvalidSymbol, outLen := 0, out := [], errByte := c, errPos := pos }
  | .invalidPadding =>
    { status := statusInvalidPadding, outLen := 0, out := [], errByte := 0, errPos := 0 }

/-- The content of the response registers (10_state.md R25), whether or not it can be read. -/
def State.response (s : State) : Response :=
  { status := s.status, outLen := s.outLen, out := s.outBuf, errByte := s.errByte, errPos := s.errPos }

/-- The response the host can read: there is none while RESP_VALID = 0 (10_state.md R26, R32). -/
def State.visibleResponse (s : State) : Option Response :=
  if s.respValid then some s.response else none

end Sys2Proof.Machine
end

