-- ==== Sys2Proof/Config.lean ====
section
/-! DEFINITION. The free values: what the spec leaves unspecified (93_implementation_defined.md I1, I2).
Each is a constant without a body, applied to a plain counter of State, so a statement about one holds
whatever it is. MAX_IN_LEN, the one open parameter (00_scope.md R7), is plain data in
`Machine.State.maxInLen`, so that statements range over it. -/

namespace Sys2Proof.Config

/-- CMD after a reset: any value (I2). -/
opaque freeCmd : Nat → Byte

/-- IN_LEN after a reset: any value (I2). -/
opaque freeInLen : Nat → Nat

/-- IN[i] where the host has written no byte: any value (I2). First argument: the epoch of IN; second:
the index i. -/
opaque freeInByte : Nat → Nat → Byte

/-- ACC between transactions: any value of its 12 bits (I1, 10_state.md R27). -/
opaque freeAcc : Nat → BitVec 12

/-- NBITS between transactions: any of its values 0 to 12 (I1, 10_state.md R27). -/
opaque freeNbits : Nat → Fin 13

/-- IDX between transactions: any value (I1). -/
opaque freeIdx : Nat → Nat

/-- OPOS between transactions: any value (I1). -/
opaque freeOpos : Nat → Nat

end Sys2Proof.Config
end

