-- ==== Sys2Proof/WellFormed.lean ====
section
/-! DEFINITION. Which requests are well formed: the conditions of 10_state.md R24's column "legal values",
one check each. A command as syntax carries no operand, so every `Instr` is well formed. -/

namespace Sys2Proof

/-- Every command is well formed: it has no field that could hold an illegal value (30_encoding.md R60). -/
def Instr.wf : Instr → Bool
  | .encode => true
  | .decode => true

/-- RSVD, bits 7..2 of CMD, is zero (30_encoding.md R63). -/
def Request.rsvdWf (r : Request) : Bool :=
  r.cmd.extractLsb 7 2 == 0#6

/-- OP, bits 1..0 of CMD, is not reserved (30_encoding.md R62). -/
def Request.opWf (r : Request) : Bool :=
  r.cmd.extractLsb 1 0 == 0b01#2 || r.cmd.extractLsb 1 0 == 0b10#2

/-- IN_LEN is at most MAX_IN_LEN, where there is a maximum (30_encoding.md R65). -/
def Request.lenWf (maxInLen : Option Nat) (r : Request) : Bool :=
  match maxInLen with
  | none => true
  | some m => decide (r.inLen ≤ m)

/-- IN is a sequence of IN_LEN bytes (20_memory.md R40). -/
def Request.bytesWf (r : Request) : Bool :=
  r.bytes.length == r.inLen

/-- A request every check of R24 admits. -/
def Request.wf (maxInLen : Option Nat) (r : Request) : Bool :=
  r.rsvdWf && r.opWf && r.lenWf maxInLen && r.bytesWf

end Sys2Proof
end

