-- ==== Sys2Proof/Decode.lean ====
section
/-! DEFINITION. The command word (30_encoding.md R60, R61): a decoder total on bytes, which rejects by
name, and the encoder beside it. -/

namespace Sys2Proof

/-- The RSVD field of a command word, bits 7..2 (R60). -/
def cmdRsvd (c : Byte) : BitVec 6 := c.extractLsb 7 2

/-- The OP field of a command word, bits 1..0 (R60). -/
def cmdOp (c : Byte) : BitVec 2 := c.extractLsb 1 0

/-- The command a CMD byte stands for, or why it stands for none (R61 to R63). A word that offends both
R62 and R63 is rejected under R63's name, as R63 applies "whatever its OP". -/
def decodeCmd (c : Byte) : Except DecodeReject Instr :=
  if cmdRsvd c ≠ 0#6 then .error .reservedField
  else if cmdOp c = 0b01#2 then .ok .encode
  else if cmdOp c = 0b10#2 then .ok .decode
  else .error .reservedOp

/-- The OP code of a command (R61). -/
def opCode : Instr → BitVec 2
  | .encode => 0b01#2
  | .decode => 0b10#2

/-- The command word of a command: RSVD = 0 above its OP code (R60, R61). -/
def encodeCmd (i : Instr) : Byte := (0#6 ++ opCode i : BitVec 8)

/-- The command an opcode-table word decodes to. A command is one 8-bit word and its length never
varies (R60), so a word of another width is no command. -/
def decodeTableWord (nbits w : Nat) : Option Instr :=
  if nbits = 8 ∧ w < 256 then
    match decodeCmd (BitVec.ofNat 8 w) with
    | .ok i => some i
    | .error _ => none
  else none

end Sys2Proof
end

