-- ==== Sys2Proof/Machine/Bits.lean ====
section
/-! DEFINITION. Bit sequences (00_scope.md R9, R10; 20_memory.md R42 to R45): most significant bit first
within each value, values one after another. -/

namespace Sys2Proof.Machine

/-- `ceil_div(a, b)` (00_scope.md R9). -/
def ceilDiv (a b : Nat) : Nat := (a + b - 1) / b

/-- The bits of one value, most significant first: bit t of the sequence is bit w − 1 − t of x. -/
def bitsOf {w : Nat} (x : BitVec w) : List Bit :=
  (List.range w).map fun t => x.getLsbD (w - 1 - t)

/-- `bits8(b)` (R10, R42). -/
def bits8 (bytes : List Byte) : List Bit := bytes.flatMap bitsOf

/-- `bits5(v)` (R10, R44). -/
def bits5 (vals : List SymVal) : List Bit := vals.flatMap bitsOf

/-- The number a bit sequence writes, most significant bit first. -/
def natOfBits (bits : List Bit) : Nat := bits.foldl (fun n b => 2 * n + b.toNat) 0

/-- `val(B, p, w)`: the w-bit number read from position p (R10). -/
def val (bits : List Bit) (p w : Nat) : Nat := natOfBits ((bits.drop p).take w)

end Sys2Proof.Machine
end

