-- ==== Sys2Proof/Machine/Operands.lean ====
section
/-! DEFINITION. The operands of a request (30_encoding.md R64): the command word, IN_LEN and IN, and
which requests are refused (10_state.md R31). -/

namespace Sys2Proof.Machine

/-- MAX_OUT_LEN, derived from MAX_IN_LEN (00_scope.md R7). -/
def State.maxOutLen (s : State) : Option Nat := s.maxInLen.map fun m => ceilDiv (8 * m) 5

/-- IN_LEN is legal: at most MAX_IN_LEN, any value where that is unbounded (R65). -/
def State.lenLegal (s : State) : Bool :=
  match s.maxInLen with
  | none => true
  | some m => decide (s.inLen ≤ m)

/-- `MemRead(IN+i, 1)` (00_scope.md R11, 20_memory.md R40). A byte the host has not written is
unspecified, so it is a free value (notes/assumptions/3.md), the same in two instances whose inEpoch is the
same (DESIGN CHOICE, notes/assumptions/16.md). -/
def memReadIn (s : State) (i : Nat) : Byte := s.inBuf.getD i (Config.freeInByte s.inEpoch i)

/-- The operand IN: the IN_LEN bytes IN[0] to IN[IN_LEN − 1] (R64, R40). -/
def State.input (s : State) : List Byte := (List.range s.inLen).map (memReadIn s)

/-- The request the registers hold: the triple (CMD, IN_LEN, IN) of 10_state.md R20. -/
def State.request (s : State) : Request :=
  { cmd := s.cmd, inLen := s.inLen, bytes := s.input }

/-- The form of the two buffers: each fits its capacity (20_memory.md R40). A buffer is a plain list, so it
has one form only. -/
def Memory.wf (s : State) : Bool :=
  match s.maxInLen with
  | none => true
  | some m => decide (s.inBuf.length ≤ m) && decide (s.outBuf.length ≤ ceilDiv (8 * m) 5)

/-- The command the CMD register holds, or the refusal of a reserved one (R61 to R63). -/
def fetch (s : State) : Except Refusal Instr :=
  match decodeCmd s.cmd with
  | .ok i => .ok i
  | .error why => .error (.reservedCommand why)

/-- Why the request in the request registers is refused, or none if it is accepted (10_state.md R31,
60_exceptions.md R154). -/
def requestRefusal (s : State) : Option Refusal :=
  match fetch s with
  | .error r => some r
  | .ok _ => if s.lenLegal then none else some .inputTooLong

end Sys2Proof.Machine
end

