-- ==== Sys2Proof/Machine/Ops.lean ====
section
/-! DEFINITION. The operations the two commands share: starting a transaction, writing OUT, writing a
response, and raising an error. The block has no return from an error: after any response it is idle
(60_exceptions.md R158), which `writeResponse` does. -/

namespace Sys2Proof.Machine

/-- The start of a transaction: the four internal registers are 0 (10_state.md R27) and OUT is empty. -/
def startTransaction (s : State) : State :=
  { s with acc := 0, nbits := 0, idx := 0, opos := 0, outBuf := [] }

/-- `MemWrite(OUT+j, 1, v)` (00_scope.md R11). OUT is written in ascending order (20_memory.md R48), so j
is an index OUT has, or the next one. -/
def memWriteOut (j : Nat) (v : Byte) (s : State) : State :=
  { s with outBuf := s.outBuf.take j ++ v :: s.outBuf.drop (j + 1) }

/-- `MemWrite` of the given bytes to OUT+j, OUT+j+1, … -/
def writeOut (j : Nat) : List Byte → State → State
  | [], s => s
  | v :: vs, s => writeOut (j + 1) vs (memWriteOut j v s)

/-- Writing a response: its five registers and RESP_VALID = 1, atomically, and the block is idle
(10_state.md R25, R26; 60_exceptions.md R158). -/
def writeResponse (r : Response) (s : State) : State :=
  { s with
    status := r.status, outLen := r.outLen, outBuf := r.out, errByte := r.errByte, errPos := r.errPos
    respValid := true, inFlight := false }

/-- `respond_ok(n)`: success, with the n bytes OUT[0] to OUT[n − 1] (00_scope.md R11, 10_state.md R25). -/
def respondOk (n : Nat) (s : State) : State := writeResponse (okResponse (s.outBuf.take n)) s

/-- `raise`: an error ends the transaction with the error response (60_exceptions.md R155). -/
def raise (e : CodecError) (s : State) : State := writeResponse (errorResponse e) s

/-- The internal registers hold unspecified values (10_state.md R27, 93_implementation_defined.md I1):
free values, fresh each time (notes/assumptions/3.md), the same in two instances whose freeCount is the same
(DESIGN CHOICE, notes/assumptions/16.md). -/
def releaseInternal (s : State) : State :=
  { s with
    acc := Config.freeAcc s.freeCount
    nbits := BitVec.ofNat 4 (Config.freeNbits s.freeCount).val
    idx := Config.freeIdx s.freeCount
    opos := Config.freeOpos s.freeCount
    freeCount := s.freeCount + 1 }

end Sys2Proof.Machine
end

