-- ==== Sys2Proof/Machine/Rom.lean ====
section
/-! DEFINITION. The symbol ROM and the two lookups (40_alphabet_rom.md R80 to R85). -/

namespace Sys2Proof.Machine

/-- The 32 entries of the ROM (R80): 'a' to 'z', then '0' to '5', as ASCII code units (00_scope.md R12). -/
def rom : List Byte :=
  [0x61, 0x62, 0x63, 0x64, 0x65, 0x66, 0x67, 0x68, 0x69, 0x6A, 0x6B, 0x6C, 0x6D, 0x6E, 0x6F, 0x70]
    ++ [0x71, 0x72, 0x73, 0x74, 0x75, 0x76, 0x77, 0x78, 0x79, 0x7A, 0x30, 0x31, 0x32, 0x33, 0x34, 0x35]

/-- V2S, the forward lookup: ROM[v] (R81). -/
def v2s (v : SymVal) : Byte := rom.getD v.toNat 0

/-- S2V, the reverse lookup: the value of a symbol byte, or none for INVALID (R82). -/
def s2v (c : Byte) : Option SymVal :=
  if 0x61#8 ≤ c ∧ c ≤ 0x7A#8 then some ((c - 0x61#8).setWidth 5)
  else if 0x30#8 ≤ c ∧ c ≤ 0x35#8 then some ((c - 0x30#8 + 26#8).setWidth 5)
  else none

end Sys2Proof.Machine
end

