-- ==== Sys2Proof/Machine/Pack.lean ====
section
/-! DEFINITION. ENCODE, the 8-to-5 bit packer (41_encode.md). -/

namespace Sys2Proof.Machine

/-- N, the number of output symbols for L input bytes (R101). -/
def symbolCount (len : Nat) : Nat := ceilDiv (8 * len) 5

/-- P, the number of pad bits for L input bytes (R102). -/
def padCount (len : Nat) : Nat := 5 * symbolCount len - 8 * len

/-- B': the input bits with the pad bits at the right end (R100). -/
def paddedBits (bytes : List Byte) : List Bit :=
  bits8 bytes ++ List.replicate (padCount bytes.length) false

/-- The groups 0 to N − 1, most significant bit first (R100, 20_memory.md R43). -/
def packGroups (bytes : List Byte) : List SymVal :=
  (List.range (symbolCount bytes.length)).map fun k => BitVec.ofNat 5 (val (paddedBits bytes) (5 * k) 5)

/-- The output symbols of ENCODE (R100). -/
def packSymbols (bytes : List Byte) : List Byte := (packGroups bytes).map v2s

/-- ENCODE (R100): every request of legal length is answered OK with its symbols (R104, R105). -/
def execEncode (s : State) : Host.Outcome State Fault Refusal :=
  if s.lenLegal then
    .next (releaseInternal (respondOk (symbolCount s.inLen)
      (writeOut 0 (packSymbols s.input) (startTransaction s))))
  else .refused .inputTooLong

end Sys2Proof.Machine
end

