-- ==== Sys2Proof/Machine/Unpack.lean ====
section
/-! DEFINITION. DECODE, the 5-to-8 bit unpacker and trailing-bit validator (42_decode.md). -/

namespace Sys2Proof.Machine

/-- Phase 1 (R121): the values of the input bytes, the first of which has index `pos`, or
InvalidSymbol at the first byte that is no symbol. -/
def mapSymbols (pos : Nat) : List Byte → Except CodecError (List SymVal)
  | [] => .ok []
  | c :: cs =>
    match s2v c with
    | none => .error (.invalidSymbol c pos)
    | some v =>
      match mapSymbols (pos + 1) cs with
      | .error e => .error e
      | .ok vs => .ok (v :: vs)

/-- M, the number of output bytes for n symbols (R126). -/
def byteCount (n : Nat) : Nat := (5 * n) / 8

/-- r, the number of leftover bits for n symbols (R123). -/
def leftoverCount (n : Nat) : Nat := (5 * n) % 8

/-- The leftover bits, read as a number (R123). -/
def leftoverVal (vals : List SymVal) : Nat :=
  val (bits5 vals) (8 * byteCount vals.length) (leftoverCount vals.length)

/-- Phase 2 (R122): the output bytes 0 to M − 1. -/
def unpackBytes (vals : List SymVal) : List Byte :=
  (List.range (byteCount vals.length)).map fun j => BitVec.ofNat 8 (val (bits5 vals) (8 * j) 8)

/-- Phases 1 to 3 (R120): the output bytes, or the error that ends the transaction. -/
def decodeSymbols (bytes : List Byte) : Except CodecError (List Byte) :=
  match mapSymbols 0 bytes with
  | .error e => .error e
  | .ok vals =>
    if leftoverCount vals.length > 0 ∧ leftoverVal vals ≠ 0 then .error .invalidPadding
    else .ok (unpackBytes vals)

/-- DECODE (R120): every request of legal length is answered, with its bytes or with an error. -/
def execDecode (s : State) : Host.Outcome State Fault Refusal :=
  if s.lenLegal then
    match decodeSymbols s.input with
    | .error e => .next (releaseInternal (raise e (startTransaction s)))
    | .ok out => .next (releaseInternal (respondOk (byteCount s.inLen) (writeOut 0 out (startTransaction s))))
  else .refused .inputTooLong

end Sys2Proof.Machine
end

