-- ==== Sys2Proof/Machine/HostPort.lean ====
section
/-! DEFINITION. The host agent: what each of its moves does, and who moves next. -/

namespace Sys2Proof.Machine

/-- The host notes a value it has read. -/
def observe (d : HostDatum) (s : State) : State := { s with seen := s.seen ++ [d] }

/-- A host read of a response register: it has a value only while RESP_VALID = 1 (10_state.md R32). -/
def readResponse (d : HostDatum) (s : State) : Host.Outcome State Fault Refusal :=
  if s.respValid then .next (observe d s) else .fault .responseNotValid

/-- A host read of OUT[j], one of the indices 0 to OUT_LEN − 1 (10_state.md R32, 20_memory.md R40). -/
def readOutByte (j : Nat) (s : State) : Host.Outcome State Fault Refusal :=
  match s.outBuf[j]? with
  | some b => readResponse (.out j b) s
  | none => if s.respValid then .fault .outIndexOutOfRange else .fault .responseNotValid

/-- IN after a host write of a byte sequence: it holds at most MAX_IN_LEN bytes (20_memory.md R40). Past the
bytes written it is unspecified, in an epoch of its own. -/
def writeInput (bytes : List Byte) (s : State) : State :=
  { s with
    inBuf := match s.maxInLen with
      | none => bytes
      | some m => bytes.take m
    inEpoch := s.inEpoch + 1 }

/-- Issuing a request sets RESP_VALID to 0 (10_state.md R26). An accepted request is then in flight; a
refused one writes nothing more and leaves the refusal mark (R31). -/
def issueRequest (s : State) : State :=
  match requestRefusal s with
  | none => { s with respValid := false, inFlight := true }
  | some r => { s with respValid := false, refusalMark := some r }

/-- Reset asserted by the host (70_reset_and_hazards.md R170): RESP_VALID = 0, no response value, no
transaction in flight (R171), and the registers R170 calls unspecified at free values (of the instance's counters alone,
notes/assumptions/16.md). The host, which is
not part of the block, is as it was. -/
def resetBlock (s : State) : State :=
  releaseInternal
    { s with
      cmd := Config.freeCmd s.inEpoch
      inLen := Config.freeInLen s.inEpoch
      inBuf := []
      respValid := false
      status := 0
      outLen := 0
      outBuf := []
      errByte := 0
      errPos := 0
      inFlight := false
      inEpoch := s.inEpoch + 1 }

/-- A host move. -/
def hostMove (m : HostMove) (s : State) : Host.Outcome State Fault Refusal :=
  match m with
  | .writeCmd c => .next { s with cmd := c }
  | .writeInLen n => .next { s with inLen := n }
  | .writeIn bytes => .next (writeInput bytes s)
  | .issue => .next (issueRequest s)
  | .await => .next s
  | .readRespValid => .next (observe (.respValid s.respValid) s)
  | .readStatus => readResponse (.status s.status) s
  | .readOutLen => readResponse (.outLen s.outLen) s
  | .readOut j => readOutByte j s
  | .readErrByte => readResponse (.errByte s.errByte) s
  | .readErrPos => readResponse (.errPos s.errPos) s
  | .reset => .next (resetBlock s)

/-- The moves that only read. -/
def HostMove.isRead : HostMove → Bool
  | .readRespValid => true
  | .readStatus => true
  | .readOutLen => true
  | .readOut _ => true
  | .readErrByte => true
  | .readErrPos => true
  | .writeCmd _ => false
  | .writeInLen _ => false
  | .writeIn _ => false
  | .issue => false
  | .await => false
  | .reset => false

/-- The moves the host may make while a request is in flight: reads and reset. It has no move that
writes a request register or issues a request then (70_reset_and_hazards.md R173, R174). -/
def HostMove.mayInterrupt (m : HostMove) : Bool := m.isRead || decide (m = .reset)

/-- Who moves next. A refused request ends everything but reads (10_state.md R31). While a request is in
flight the block performs it, unless the host's next move is one it may make then. Otherwise the host
moves; it waits at `await` until RESP_VALID = 1. -/
def turn (s : State) : Turn :=
  match s.refusalMark, s.host with
  | some r, [] => .stopped r
  | some r, m :: rest => if m.isRead then .host m rest else .stopped r
  | none, [] => if s.inFlight then .block else .idle
  | none, m :: rest =>
    if s.inFlight then
      if m.mayInterrupt then .host m rest else .block
    else if m = .await ∧ s.respValid = false then .idle
    else .host m rest

end Sys2Proof.Machine
end

