-- ==== Sys2Proof/Machine/Step.lean ====
section
/-! DEFINITION. One step: the block performs the request in flight as one atomic transaction (10_state.md
R20), or the host makes a move, or nothing happens. The block has no program counter and fetches no
instructions (R22): its next command is the one in the CMD register. -/

namespace Sys2Proof.Machine

/-- One step of the block and its host. -/
def step (s : State) : Host.Outcome State Fault Refusal :=
  match turn s with
  | .stopped r => .refused r
  | .idle => .next s
  | .host m rest => hostMove m { s with host := rest }
  | .block =>
    match fetch s with
    | .error r => .refused r
    | .ok i => exec i s

/-- The state in which the host has written the word to CMD, has issued the request, and waits: the very
next step is the block's transaction. IN_LEN and IN are as they were. -/
def State.withFetchWord (s : State) (nbits w : Nat) : State :=
  { s with
    cmd := BitVec.ofNat 8 (w % 2 ^ nbits)
    respValid := false
    inFlight := true
    refusalMark := none
    host := .await :: s.host }

end Sys2Proof.Machine
end

