-- ==== Sys2Proof/Machine/Bank.lean ====
section
/-! DEFINITION. Several instances side by side (60_exceptions.md R164): each is a State of its own, with its
own host; they share the constant ROM only. -/

namespace Sys2Proof.Machine

/-- A step of instance i of a bank of instances. An index with no instance does nothing. Where the instance's
own step faults or is refused, the bank's step ends with that fault or refusal and gives no next bank; R164
does not say this (DESIGN CHOICE, notes/assumptions/17.md). Instances with equal counters hold equal free
values (DESIGN CHOICE, notes/assumptions/16.md). -/
def bankStep (i : Nat) (bank : List State) : Host.Outcome (List State) Fault Refusal :=
  match bank[i]? with
  | none => .next bank
  | some s =>
    match step s with
    | .next t => .next (bank.set i t)
    | .fault f => .fault f
    | .refused r => .refused r

end Sys2Proof.Machine
end

