-- ==== Sys2Proof/Machine/Sequence.lean ====
section
/-! DEFINITION. The reference sequencings of the two commands over the internal registers ACC, NBITS, IDX
and OPOS (41_encode.md R103, 42_decode.md R127). They are not normative: `exec` follows R100 and R120, and
that these give the same responses is a statement about both. A `while` is a recursion on a number of
rounds that is at least the number it takes. -/

namespace Sys2Proof.Machine

/-- ENCODE's inner loop: while NBITS ≥ 5, emit one symbol (R103). -/
def emitSymbols : Nat → State → State
  | 0, s => s
  | rounds + 1, s =>
    if 5 ≤ s.nbits.toNat then
      let nbits := s.nbits - 5
      let s := memWriteOut s.opos (v2s ((s.acc >>> nbits.toNat).setWidth 5)) { s with nbits := nbits }
      emitSymbols rounds { s with opos := s.opos + 1 }
    else s

/-- One round of ENCODE's outer loop: take in the byte at IDX, then emit (R103). NBITS < 16, so the inner
loop takes at most 3 rounds. -/
def encodeRound (s : State) : State :=
  emitSymbols 3
    { s with
      acc := (s.acc <<< 8) ||| (memReadIn s s.idx).setWidth 12
      nbits := s.nbits + 8
      idx := s.idx + 1 }

/-- ENCODE's outer loop: while IDX < IN_LEN (R103). -/
def encodeRounds : Nat → State → State
  | 0, s => s
  | rounds + 1, s => if s.idx < s.inLen then encodeRounds rounds (encodeRound s) else s

/-- ENCODE's final partial group (R103). -/
def emitPartial (s : State) : State :=
  if 0 < s.nbits.toNat then
    let s := memWriteOut s.opos (v2s ((s.acc <<< (5 - s.nbits.toNat)).setWidth 5)) s
    { s with opos := s.opos + 1 }
  else s

/-- The reference sequencing of ENCODE (R103). -/
def encodeSequence (s : State) : State :=
  let t := emitPartial (encodeRounds s.inLen (startTransaction s))
  respondOk t.opos t

/-- One round of DECODE's loop (R127). An error carries the state the transaction ends in. -/
def decodeRound (s : State) : Except State State :=
  let c := memReadIn s s.idx
  match s2v c with
  | none => .error (raise (.invalidSymbol c s.idx) s)
  | some v =>
    let s := { s with acc := (s.acc <<< 5) ||| v.setWidth 12, nbits := s.nbits + 5, idx := s.idx + 1 }
    if 8 ≤ s.nbits.toNat then
      let nbits := s.nbits - 8
      let s := memWriteOut s.opos ((s.acc >>> nbits.toNat).setWidth 8) { s with nbits := nbits }
      .ok { s with opos := s.opos + 1 }
    else .ok s

/-- DECODE's loop: while IDX < IN_LEN (R127). -/
def decodeRounds : Nat → State → Except State State
  | 0, s => .ok s
  | rounds + 1, s =>
    if s.idx < s.inLen then
      match decodeRound s with
      | .error t => .error t
      | .ok t => decodeRounds rounds t
    else .ok s

/-- The reference sequencing of DECODE (R127). -/
def decodeSequence (s : State) : State :=
  match decodeRounds s.inLen (startTransaction s) with
  | .error t => t
  | .ok t =>
    if 0 < t.nbits.toNat ∧ t.acc.toNat % 2 ^ t.nbits.toNat ≠ 0 then raise .invalidPadding t
    else respondOk t.opos t

end Sys2Proof.Machine
end

