-- ==== Sys2Proof/Safety.lean ====
section
/-! DEFINITION. What every state of a run satisfies, in the terms the statements use. -/

namespace Sys2Proof.Machine

/-- A response is one of the three columns of 10_state.md R25's table. In the column INVALID_SYMBOL the
recorded byte is no symbol (60_exceptions.md R151). -/
def Response.legal (r : Response) : Bool :=
  decide (r.outLen = r.out.length) &&
    (decide (r.status = statusOk ∧ r.errByte = 0 ∧ r.errPos = 0)
      || decide (r.status = statusInvalidSymbol ∧ r.outLen = 0 ∧ s2v r.errByte = none)
      || decide (r.status = statusInvalidPadding ∧ r.outLen = 0 ∧ r.errByte = 0 ∧ r.errPos = 0))

/-- IN_LEN is legal: at most MAX_IN_LEN, where there is a maximum (30_encoding.md R65). -/
def LegalLength (s : State) : Prop := ∀ m, s.maxInLen = some m → s.inLen ≤ m

/-- Bit p of the bit sequence of a byte sequence (00_scope.md R10): `bits8(b)[8*i + j] = b[i][7 - j]`. -/
def inputBit (bytes : List Byte) (p : Nat) : Bit := (bytes.getD (p / 8) 0).getLsbD (7 - p % 8)

/-- Bit p of the bit sequence of a sequence of 5-bit values (R10): `bits5(v)[5*i + t] = v[i][4 - t]`. -/
def symbolBit (vals : List SymVal) (p : Nat) : Bit := (vals.getD (p / 5) 0).getLsbD (4 - p % 5)

/-- The two states differ at most in what the host cannot read: the internal registers of 10_state.md R27
and the counter of their free values. -/
def sameToHost (s u : State) : Prop :=
  { s with acc := u.acc, nbits := u.nbits, idx := u.idx, opos := u.opos, freeCount := u.freeCount } = u

/-- Two outcomes the host cannot tell apart. -/
def sameOutcome : Host.Outcome State Fault Refusal → Host.Outcome State Fault Refusal → Prop
  | .next s, .next u => sameToHost s u
  | .fault f, .fault g => f = g
  | .refused r, .refused q => r = q
  | _, _ => False

/-- The condition of 42_decode.md R124's table under which the leftover bits of the values are all 0, by
n mod 8, on the last and the second-last value. -/
def tailIsZero (vals : List SymVal) : Prop :=
  let last := vals.getD (vals.length - 1) 0
  let prev := vals.getD (vals.length - 2) 0
  match vals.length % 8 with
  | 0 => True
  | 1 => last = 0
  | 2 => last.toNat % 4 = 0
  | 3 => prev.toNat % 4 = 0 ∧ last = 0
  | 4 => last.toNat % 16 = 0
  | 5 => last.toNat % 2 = 0
  | 6 => prev.toNat % 2 = 0 ∧ last = 0
  | _ => last.toNat % 8 = 0

/-- The invariant of the block and its host. -/
structure BlockInv (s : State) : Prop where
  /-- The buffers fit their capacities (20_memory.md R40). -/
  memory : Memory.wf s = true
  /-- NBITS holds one of its values 0 to 12 (10_state.md R27). -/
  nbits : s.nbits.toNat ≤ 12
  /-- A readable response is one the block writes (10_state.md R25). -/
  legal : s.respValid = true → s.response.legal = true
  /-- RESP_VALID = 0 while a request is in flight (10_state.md R26). -/
  pending : s.inFlight = true → s.respValid = false
  /-- A request in flight is an accepted one (10_state.md R31). -/
  accepted : s.inFlight = true → requestRefusal s = none
  /-- After a refusal RESP_VALID = 0 and nothing is in flight (10_state.md R31). -/
  marked : ∀ r, s.refusalMark = some r → s.respValid = false ∧ s.inFlight = false

end Sys2Proof.Machine
end

