-- ==== Sys2Proof/Certificates/Slice0/Obligations.lean ====
section
/-! DEFINITION. The statements for the provers. A state is any state of the model, reachable or not, unless
the statement says `BlockInv`. -/

open Sys2Proof Sys2Proof.Machine

/-! ### The command word -/

/-- 30_encoding.md R61: the two command words, both ways, as CMD bytes and as table words. -/
def Obligations.CommandWordsStandForTheirCommands : Prop :=
  decodeCmd 0x01#8 = .ok .encode ∧ decodeCmd 0x02#8 = .ok .decode ∧
    encodeCmd .encode = 0x01#8 ∧ encodeCmd .decode = 0x02#8 ∧
    decodeTableWord 8 0x01 = some .encode ∧ decodeTableWord 8 0x02 = some .decode

/-- 30_encoding.md R60, R61: decoding an encoded command gives it back, and no other word decodes to it. -/
def Obligations.DecodeInvertsEncode : Prop :=
  ∀ i : Instr, i.wf = true →
    decodeCmd (encodeCmd i) = .ok i ∧ ∀ c : Byte, decodeCmd c = .ok i → c = encodeCmd i

/-- 30_encoding.md R62, R63: a command word with a reserved OP or a nonzero RSVD is refused, and those are
exactly the words that are neither 0x01 nor 0x02. Two things in it are the model's choice: that the refusal
falls at the block's turn (notes/assumptions/6.md; under `BlockInv` no such word is in flight, and only
`withFetchWord` puts one there), and that its name is `reservedCommand` also where IN_LEN is above MAX_IN_LEN
(notes/assumptions/7.md). -/
def Obligations.ReservedCommandWordsAreRefused : Prop :=
  ∀ s : State, turn s = .block →
    ((cmdRsvd s.cmd ≠ 0#6 ∨ cmdOp s.cmd = 0b00#2 ∨ cmdOp s.cmd = 0b11#2) ↔
        ∃ why, step s = .refused (.reservedCommand why)) ∧
      ((s.cmd ≠ 0x01#8 ∧ s.cmd ≠ 0x02#8) ↔ ∃ why, step s = .refused (.reservedCommand why))

/-- 30_encoding.md R65: a request longer than MAX_IN_LEN is refused, and any other length, 0 too, is answered
by both commands. -/
def Obligations.LegalLengthsAreAnsweredOthersRefused : Prop :=
  ∀ (i : Instr) (s : State),
    ((∃ m, s.maxInLen = some m ∧ m < s.inLen) → exec i s = .refused .inputTooLong) ∧
      (LegalLength s → ∃ t, exec i s = .next t ∧ t.respValid = true ∧ t.inFlight = false)

/-! ### Steps, turns and the handshake -/

/-- 10_state.md R20, R22: with a request in flight and no host move that may come between, a step is the
transaction of the command in CMD. -/
def Obligations.StepRunsTheCommandInCmd : Prop :=
  ∀ (s : State) (i : Instr), s.refusalMark = none → s.inFlight = true →
    (∀ m ∈ s.host.head?, m.isRead = false ∧ m ≠ .reset) → decodeCmd s.cmd = .ok i → i.wf = true →
    step s = exec i s

/-- The model's `withFetchWord` (the model's own, notes/assumptions/4.md): the very next step runs the word's command, on the operands as they were. -/
def Obligations.FetchWordRunsNext : Prop :=
  ∀ (s : State) (i : Instr) (w : Nat), decodeTableWord 8 w = some i →
    step (s.withFetchWord 8 w) = exec i (s.withFetchWord 8 w) ∧ (s.withFetchWord 8 w).input = s.input

/-- 10_state.md R26: RESP_VALID is 0 after reset, issuing sets it to 0, only a response sets it to 1, and it
does so with the response registers; while it is 0 there is no response. -/
def Obligations.RespValidFollowsTheHandshake : Prop :=
  (∀ m, (State.resetWith m).respValid = false) ∧
    (∀ (s : State) (rest : List HostMove), turn s = .host .issue rest →
      ∃ t, step s = .next t ∧ t.respValid = false) ∧
    (∀ (i : Instr) (s : State), LegalLength s →
      ∃ t, exec i s = .next t ∧ t.respValid = true ∧ t.visibleResponse = some t.response) ∧
    (∀ s t : State, s.respValid = false → step s = .next t → t.respValid = true →
      ∃ i, fetch s = .ok i ∧ exec i s = .next t) ∧
    (∀ s : State, s.respValid = false → s.visibleResponse = none)

/-- 60_exceptions.md R154, 10_state.md R31: a request whose CMD is not 0x01 or 0x02, or whose IN_LEN is above
MAX_IN_LEN, leaves the refusal mark and writes no response register. The rules fix no moment for this: that the
mark stands after the issue step, with nothing in flight, is the model's choice (notes/assumptions/6.md), and
that any other request is merely in flight after that step is so too (notes/assumptions/5.md). -/
def Obligations.IssueAcceptsOrMarks : Prop :=
  ∀ (s : State) (rest : List HostMove), s.refusalMark = none → s.inFlight = false → s.host = .issue :: rest →
    ∃ t, step s = .next t ∧ t.host = rest ∧ t.respValid = false ∧ t.response = s.response ∧
      ((s.cmd = 0x01#8 ∨ s.cmd = 0x02#8) ∧ LegalLength s → t.inFlight = true ∧ t.refusalMark = none) ∧
      (¬((s.cmd = 0x01#8 ∨ s.cmd = 0x02#8) ∧ LegalLength s) →
        t.inFlight = false ∧ ∃ r, t.refusalMark = some r ∧ ∀ name, r ≠ .notModelled name)

/-- 10_state.md R31: the refusal mark is never cleared, and no response is written under it. (That every step
but a host read then answers the refusal is the model's choice, notes/assumptions/6.md.) -/
def Obligations.RefusalMarkIsPermanent : Prop :=
  ∀ (s : State) (r : Refusal), s.refusalMark = some r →
    (∀ t, step s = .next t → t.refusalMark = some r ∧ t.respValid = s.respValid ∧ t.response = s.response) ∧
      ((∀ m ∈ s.host.head?, m.isRead = false) → step s = .refused r)

/-- 10_state.md R32: a read of any response register while RESP_VALID = 0 faults. -/
def Obligations.ResponseReadsFaultWithoutResponse : Prop :=
  ∀ (s : State) (m : HostMove) (rest : List HostMove), turn s = .host m rest → s.respValid = false →
    (m = .readStatus ∨ m = .readOutLen ∨ (∃ j, m = .readOut j) ∨ m = .readErrByte ∨ m = .readErrPos) →
    step s = .fault .responseNotValid

/-- 10_state.md R25, R26, 20_memory.md R40: a read of RESP_VALID, and with RESP_VALID = 1 of a response
register, gives the host the register's value and changes nothing else. (That a read of OUT at or past its length
faults is the model's inference from R40, notes/assumptions/8.md.) -/
def Obligations.ReadsDeliverTheRegisters : Prop :=
  ∀ (s : State) (m : HostMove) (rest : List HostMove), turn s = .host m rest →
    (m = .readRespValid → step s = .next { s with host := rest, seen := s.seen ++ [.respValid s.respValid] }) ∧
    (s.respValid = true →
      (m = .readStatus → step s = .next { s with host := rest, seen := s.seen ++ [.status s.status] }) ∧
      (m = .readOutLen → step s = .next { s with host := rest, seen := s.seen ++ [.outLen s.outLen] }) ∧
      (m = .readErrByte → step s = .next { s with host := rest, seen := s.seen ++ [.errByte s.errByte] }) ∧
      (m = .readErrPos → step s = .next { s with host := rest, seen := s.seen ++ [.errPos s.errPos] }) ∧
      (∀ j b, m = .readOut j → s.outBuf[j]? = some b →
        step s = .next { s with host := rest, seen := s.seen ++ [.out j b] }) ∧
      (∀ j, m = .readOut j → s.outBuf.length ≤ j → step s = .fault .outIndexOutOfRange))

/-- 10_state.md R24: the host's writes put their values into the request registers and change nothing else but
those; IN keeps the bytes it has room for. (One move writes all of IN, notes/assumptions/9.md.) -/
def Obligations.HostWritesReachTheRequestRegisters : Prop :=
  ∀ (s : State) (rest : List HostMove),
    (∀ c, turn s = .host (.writeCmd c) rest → step s = .next { s with host := rest, cmd := c }) ∧
      (∀ n, turn s = .host (.writeInLen n) rest → step s = .next { s with host := rest, inLen := n }) ∧
      (∀ bytes, turn s = .host (.writeIn bytes) rest →
        ∃ t, step s = .next t ∧ t = { s with host := rest, inBuf := t.inBuf, inEpoch := t.inEpoch } ∧
          ∀ j b, bytes[j]? = some b → (∀ m, s.maxInLen = some m → j < m) → memReadIn t j = b)

/-- 20_memory.md R49, 70_reset_and_hazards.md R172: the request a host writes to CMD, IN_LEN and IN and then
issues is the one the block answers. -/
def Obligations.HostRequestIsAnswered : Prop :=
  ∀ (s : State) (i : Instr) (bytes : List Byte) (rest : List HostMove),
    s.refusalMark = none → s.inFlight = false → (∀ m, s.maxInLen = some m → bytes.length ≤ m) →
    s.host = .writeCmd (encodeCmd i) :: .writeInLen bytes.length :: .writeIn bytes :: .issue :: .await :: rest →
    ∃ u t, core.run 4 s = .next u ∧ u.respValid = false ∧
      u.request = { cmd := encodeCmd i, inLen := bytes.length, bytes := bytes } ∧
      exec i u = .next t ∧ core.run 5 s = .next t ∧ t.respValid = true

/-- 70_reset_and_hazards.md R176: a request in flight gets its response after finitely many steps. A host that
polls RESP_VALID n times and then waits has the response at step n + 1. (That its reads come before the
response and so read 0 is the model's choice, notes/assumptions/5.md.) -/
def Obligations.PollingHostGetsTheResponse : Prop :=
  ∀ (n : Nat) (s : State) (rest : List HostMove), BlockInv s → s.inFlight = true →
    s.host = List.replicate n .readRespValid ++ .await :: rest →
    ∃ t, core.run (n + 1) s = .next t ∧ t.respValid = true ∧ t.inFlight = false ∧
      t.seen = s.seen ++ List.replicate n (.respValid false)

/-- 70_reset_and_hazards.md R173: while a request is in flight and the host does not reset, no step changes
the request registers or the input. -/
def Obligations.RequestIsHeldInFlight : Prop :=
  ∀ s t : State, s.inFlight = true → s.host.head? ≠ some .reset → step s = .next t →
    t.cmd = s.cmd ∧ t.inLen = s.inLen ∧ t.inBuf = s.inBuf ∧ t.input = s.input

/-- 20_memory.md R47: a step from a request in flight shows the host no response, or the whole response of
the request. -/
def Obligations.OnlyWholeResponsesAppear : Prop :=
  ∀ s t : State, BlockInv s → s.inFlight = true → step s = .next t →
    t.visibleResponse = none ∨ ∃ i, fetch s = .ok i ∧ exec i s = .next t ∧ t.inFlight = false

/-- 60_exceptions.md R165, 20_memory.md R49: with no request in flight and no host move, nothing happens. (A
host that waits, by the move `await`, is the model's own, notes/assumptions/5.md: it stays where it is until
RESP_VALID = 1, then goes on.) -/
def Obligations.IdleBlockWaitsForTheHost : Prop :=
  ∀ s : State, s.refusalMark = none → s.inFlight = false →
    (s.host = [] → step s = .next s) ∧
      (∀ rest, s.host = .await :: rest → s.respValid = false → step s = .next s) ∧
      (∀ rest, s.host = .await :: rest → s.respValid = true → step s = .next { s with host := rest })

/-! ### Reset -/

/-- 70_reset_and_hazards.md R170, for every MAX_IN_LEN: after reset RESP_VALID = 0, the response registers hold
no value, the block is idle and the ROM holds its 32 entries. (R170's unspecified registers stand as notes/assumptions/1.md says, and
nothing is claimed of them.) -/
def Obligations.ResetLeavesNoResponse : Prop :=
  ∀ maxInLen : Option Nat,
    (State.resetWith maxInLen).respValid = false ∧ (State.resetWith maxInLen).visibleResponse = none ∧
      (State.resetWith maxInLen).inFlight = false ∧ turn (State.resetWith maxInLen) = .idle ∧
      (∀ m, (m = .readStatus ∨ m = .readOutLen ∨ (∃ j, m = .readOut j) ∨ m = .readErrByte ∨ m = .readErrPos) →
        step { State.resetWith maxInLen with host := [m] } = .fault .responseNotValid) ∧
      rom.length = 32 ∧ ∀ v : SymVal, rom[v.toNat]? = some (v2s v)

/-- 70_reset_and_hazards.md R171: reset, also with a request in flight, leaves the block idle, with RESP_VALID
= 0 and no response, and abandons the request. -/
def Obligations.ResetAbandonsTheRequest : Prop :=
  ∀ (s : State) (rest : List HostMove), s.refusalMark = none → s.host = .reset :: rest →
    ∃ t, step s = .next t ∧ t.inFlight = false ∧ t.respValid = false ∧ t.visibleResponse = none ∧
      t.maxInLen = s.maxInLen ∧ t.host = rest ∧ t.seen = s.seen

/-- The invariant holds after reset, for every MAX_IN_LEN. -/
def Obligations.ResetMeetsTheInvariant : Prop := ∀ maxInLen, BlockInv (State.resetWith maxInLen)

/-! ### Whole-machine rules -/

/-- Every step keeps the invariant: the buffers fit their capacities (20_memory.md R40), NBITS is at most 12
(10_state.md R27), a readable response is a column of R25's table, RESP_VALID = 0 in flight (R26), what is in
flight is an accepted request, and a refusal leaves RESP_VALID = 0 (R31). -/
def Obligations.EveryStepKeepsTheInvariant : Prop :=
  ∀ s t : State, BlockInv s → step s = .next t → BlockInv t

/-- Under the invariant a step refuses only where the refusal mark stands: an accepted request is never
refused (10_state.md R31, 60_exceptions.md R154). -/
def Obligations.AcceptedRequestsAreNeverRefused : Prop :=
  ∀ (s : State) (r : Refusal), BlockInv s → step s = .refused r → s.refusalMark = some r

/-- 60_exceptions.md R153, 10_state.md R32: only a host read faults, and only for want of a response or of an OUT
byte. No command faults. -/
def Obligations.OnlyHostReadsFault : Prop :=
  (∀ (i : Instr) (s : State) (f : Fault), exec i s ≠ .fault f) ∧
    ∀ (s : State) (f : Fault), step s = .fault f →
      ∃ m rest, s.host = m :: rest ∧ m.isRead = true ∧
        ((f = .responseNotValid ∧ s.respValid = false ∧ m ≠ .readRespValid) ∨
          (f = .outIndexOutOfRange ∧ s.respValid = true ∧ ∃ j, m = .readOut j ∧ s.outBuf.length ≤ j))

/-- 00_scope.md R7: MAX_IN_LEN is a parameter, which no step changes. (That State carries it is the model's
choice, notes/assumptions/2.md.) -/
def Obligations.NoStepChangesTheParameter : Prop :=
  ∀ s t : State, step s = .next t → t.maxInLen = s.maxInLen

/-- 00_scope.md R7: no response is longer than MAX_OUT_LEN = ceil_div(8 * MAX_IN_LEN, 5), and the longest
ENCODE output has that length. -/
def Obligations.OutputFitsTheOutputBuffer : Prop :=
  ∀ (i : Instr) (s : State) (m : Nat), s.maxInLen = some m → s.inLen ≤ m →
    ∃ t n, exec i s = .next t ∧ t.maxOutLen = some n ∧ n = (8 * m + 4) / 5 ∧ t.outLen = t.outBuf.length ∧
      t.outLen ≤ n ∧ (i = .encode → s.inLen = m → t.outLen = n)

/-- 30_encoding.md R66: STATUS code 3 is never written. -/
def Obligations.StatusThreeIsNeverWritten : Prop :=
  (∀ (i : Instr) (s t : State), exec i s = .next t → t.status = 0 ∨ t.status = 1 ∨ t.status = 2) ∧
    ∀ s t : State, step s = .next t → t.status = 3 → s.status = 3

/-- 10_state.md R29: two states that agree on MAX_IN_LEN and on the request's IN_LEN and IN get the same outcome
from a command, and the same response. -/
def Obligations.ResponseDependsOnTheRequestAlone : Prop :=
  ∀ (i : Instr) (s u : State), s.maxInLen = u.maxInLen → s.inLen = u.inLen → s.input = u.input →
    (LegalLength s → ∃ t w, exec i s = .next t ∧ exec i u = .next w ∧ t.visibleResponse = w.visibleResponse) ∧
      (¬LegalLength s → exec i s = .refused .inputTooLong ∧ exec i u = .refused .inputTooLong)

/-- 60_exceptions.md R158, 10_state.md R29: after a response, OK or error, issuing the same request again gets
the same response. -/
def Obligations.ReissuedRequestGetsTheSameResponse : Prop :=
  ∀ (i : Instr) (s t : State) (rest : List HostMove), decodeCmd s.cmd = .ok i → exec i s = .next t →
    t.refusalMark = none → t.host = .issue :: .await :: rest →
    t.inFlight = false ∧ ∃ w, core.run 2 t = .next w ∧ w.visibleResponse = t.visibleResponse ∧
      w.respValid = true

/-- 10_state.md R27: the host cannot read the internal registers. Two states that differ at most in them stay
so, step by step, and stop alike. -/
def Obligations.HostCannotObserveInternalRegisters : Prop :=
  ∀ s u : State, sameToHost s u → sameOutcome (step s) (step u)

/-- The frame of both commands (20_memory.md R40, 60_exceptions.md R155): the request registers, every byte of
IN, the parameter, the refusal mark and the host are as they were. The response registers, RESP_VALID and the
internal registers are the ones that may change. -/
def Obligations.CommandsChangeOnlyTheResponse : Prop :=
  ∀ (i : Instr) (s t : State), exec i s = .next t →
    t.maxInLen = s.maxInLen ∧ t.cmd = s.cmd ∧ t.inLen = s.inLen ∧ t.inBuf = s.inBuf ∧ t.inEpoch = s.inEpoch ∧
      t.refusalMark = s.refusalMark ∧ t.host = s.host ∧ t.seen = s.seen ∧
      ∀ j, memReadIn t j = memReadIn s j

/-- 60_exceptions.md R164: a step of one instance leaves every other as it was, and is that instance's own
step. (That the bank's step ends with the instance's fault or refusal is the model's choice,
notes/assumptions/17.md.) -/
def Obligations.InstancesAreIndependent : Prop :=
  ∀ (i : Nat) (bank : List State) (s : State), bank[i]? = some s →
    (∀ t, step s = .next t → ∃ bank', bankStep i bank = .next bank' ∧ bank'[i]? = some t ∧
      bank'.length = bank.length ∧ ∀ j, j ≠ i → bank'[j]? = bank[j]?) ∧
      (∀ f, step s = .fault f → bankStep i bank = .fault f) ∧
      (∀ r, step s = .refused r → bankStep i bank = .refused r)

/-! ### The ROM -/

/-- 40_alphabet_rom.md R80, R81: the ROM has 32 entries, V2S gives entry v, and that is 'a' + v up to 25 and
'0' + (v − 26) above. -/
def Obligations.ForwardLookupFollowsTheAlphabet : Prop :=
  rom.length = 32 ∧ ∀ v : SymVal, rom[v.toNat]? = some (v2s v) ∧
    (v.toNat ≤ 25 → (v2s v).toNat = 0x61 + v.toNat) ∧ (25 < v.toNat → (v2s v).toNat = 0x30 + (v.toNat - 26))

/-- 40_alphabet_rom.md R82: S2V, on all 256 bytes. -/
def Obligations.ReverseLookupFollowsTheAlphabet : Prop :=
  ∀ c : Byte,
    (0x61 ≤ c.toNat ∧ c.toNat ≤ 0x7A → ∃ v, s2v c = some v ∧ v.toNat = c.toNat - 0x61) ∧
      (0x30 ≤ c.toNat ∧ c.toNat ≤ 0x35 → ∃ v, s2v c = some v ∧ v.toNat = c.toNat - 0x30 + 26) ∧
      (¬(0x61 ≤ c.toNat ∧ c.toNat ≤ 0x7A) → ¬(0x30 ≤ c.toNat ∧ c.toNat ≤ 0x35) → s2v c = none)

/-- 40_alphabet_rom.md R83: exactly 32 bytes are symbols, and no uppercase letter is. -/
def Obligations.ThirtyTwoBytesAreSymbols : Prop :=
  ((List.range 256).filter fun n => (s2v (BitVec.ofNat 8 n)).isSome).length = 32 ∧
    ((List.range 256).filter fun n => (s2v (BitVec.ofNat 8 n)).isNone).length = 224 ∧
    ∀ c : Byte, ((s2v c).isSome = true ↔ (0x61#8 ≤ c ∧ c ≤ 0x7A#8) ∨ (0x30#8 ≤ c ∧ c ≤ 0x35#8)) ∧
      (0x41#8 ≤ c ∧ c ≤ 0x5A#8 → s2v c = none)

/-- 40_alphabet_rom.md R84: the two lookups are inverse to each other. -/
def Obligations.LookupsAreInverse : Prop :=
  (∀ v : SymVal, s2v (v2s v) = some v) ∧ ∀ (c : Byte) (v : SymVal), s2v c = some v → v2s v = c

/-! ### ENCODE -/

/-- 41_encode.md R100, R104, R105, 20_memory.md R42, R43: ENCODE answers OK with ceil_div(8L, 5) symbols; bit j of
group k, from the left, is bit 5k + j of the input bits, or 0 past their end. -/
def Obligations.EncodeAnswersTheSymbolsOfTheGroups : Prop :=
  ∀ s : State, LegalLength s →
    ∃ t, exec .encode s = .next t ∧ t.respValid = true ∧ t.status = 0 ∧ t.errByte = 0 ∧ t.errPos = 0 ∧
      t.outLen = ceilDiv (8 * s.inLen) 5 ∧ t.outBuf.length = t.outLen ∧
      ∀ k < t.outLen, ∃ v : SymVal, t.outBuf[k]? = some (v2s v) ∧
        ∀ j < 5, v.getLsbD (4 - j) = (decide (5 * k + j < 8 * s.inLen) && inputBit s.input (5 * k + j))

/-- 41_encode.md R101: the length law of ENCODE in both forms. -/
def Obligations.EncodeLengthLaw : Prop :=
  ∀ s : State, LegalLength s →
    ∃ t, exec .encode s = .next t ∧ t.outLen = ceilDiv (8 * s.inLen) 5 ∧
      t.outLen = 8 * (s.inLen / 5) + [0, 2, 4, 5, 7].getD (s.inLen % 5) 0

/-- 41_encode.md R102: the symbols, q = 8L mod 5 and P, by L mod 5; no symbol is for padding alone; and where
8L is not a multiple of 5, P = 5 − q and the final group is the last q input bits shifted left by P. -/
def Obligations.EncodePadsTheFinalGroupOnTheRight : Prop :=
  ∀ s : State, LegalLength s →
    ∃ t q, exec .encode s = .next t ∧ q = (8 * s.inLen) % 5 ∧ q = [0, 3, 1, 4, 2].getD (s.inLen % 5) 0 ∧
      padCount s.inLen = [0, 2, 4, 1, 3].getD (s.inLen % 5) 0 ∧
      t.outLen = 8 * (s.inLen / 5) + [0, 2, 4, 5, 7].getD (s.inLen % 5) 0 ∧ 5 * t.outLen < 8 * s.inLen + 5 ∧
      (q ≠ 0 → padCount s.inLen = 5 - q ∧
        t.outBuf.getLast? = some (v2s (BitVec.ofNat 5 (val (bits8 s.input) (8 * s.inLen - q) q <<< (5 - q)))))

/-- 41_encode.md R106: every byte of ENCODE's output is a symbol, so DECODE of it never reports
INVALID_SYMBOL. -/
def Obligations.EncodeOutputIsSymbols : Prop :=
  ∀ s : State, LegalLength s →
    ∃ t, exec .encode s = .next t ∧ (∀ c ∈ t.outBuf, (s2v c).isSome = true) ∧
      ∀ u : State, LegalLength u → u.input = t.outBuf → ∃ w, exec .decode u = .next w ∧ w.status ≠ 1

/-- 41_encode.md R103: the reference sequencing over ACC, NBITS, IDX and OPOS gives the response of R100. -/
def Obligations.EncodeSequenceGivesTheSameResponse : Prop :=
  ∀ s : State, LegalLength s →
    ∃ t, exec .encode s = .next t ∧ (encodeSequence s).visibleResponse = t.visibleResponse ∧
      (encodeSequence s).respValid = true

/-- 41_encode.md R103, its invariants: after n bytes NBITS = 8n mod 5, at most 4, and the low NBITS bits of ACC
are the last input bits. -/
def Obligations.EncodeLoopHoldsItsInvariants : Prop :=
  ∀ (s : State) (n : Nat), n ≤ s.inLen →
    (encodeRounds n (startTransaction s)).idx = n ∧
      (encodeRounds n (startTransaction s)).nbits.toNat = (8 * n) % 5 ∧
      (encodeRounds n (startTransaction s)).nbits.toNat ≤ 4 ∧
      (encodeRounds n (startTransaction s)).opos = (8 * n) / 5 ∧
      ∀ j < (8 * n) % 5, (encodeRounds n (startTransaction s)).acc.getLsbD j = inputBit s.input (8 * n - 1 - j)

/-! ### DECODE -/

/-- 42_decode.md R121, 60_exceptions.md R151, R156: the first byte that is no symbol is reported, with its index
from 0, whatever the leftover bits and the bytes after it. -/
def Obligations.DecodeReportsTheFirstInvalidSymbol : Prop :=
  ∀ (s : State) (p : Nat) (c : Byte), LegalLength s → s.input[p]? = some c → s2v c = none →
    (∀ q < p, ∀ d, s.input[q]? = some d → s2v d ≠ none) →
    ∃ t, exec .decode s = .next t ∧ t.respValid = true ∧ t.status = 1 ∧ t.errByte = c ∧ t.errPos = p ∧
      t.outLen = 0 ∧ t.outBuf = []

/-- 42_decode.md R123, 60_exceptions.md R152: with every byte a symbol, a leftover bit that is 1 gives
INVALID_PADDING. -/
def Obligations.DecodeRejectsNonzeroLeftoverBits : Prop :=
  ∀ (s : State) (vals : List SymVal) (p : Nat), LegalLength s → s.input = vals.map v2s →
    8 * ((5 * s.inLen) / 8) ≤ p → p < 5 * s.inLen → symbolBit vals p = true →
    ∃ t, exec .decode s = .next t ∧ t.respValid = true ∧ t.status = 2 ∧ t.errByte = 0 ∧ t.errPos = 0 ∧
      t.outLen = 0 ∧ t.outBuf = []

/-- 42_decode.md R120, R122, R129, 20_memory.md R44: with every byte a symbol and every leftover bit 0, DECODE
answers OK with (5n) div 8 bytes; bit i of byte j, from the left, is bit 8j + i of the values' bits. -/
def Obligations.DecodeAnswersTheBytesOfTheValues : Prop :=
  ∀ (s : State) (vals : List SymVal), LegalLength s → s.input = vals.map v2s →
    (∀ p, 8 * ((5 * s.inLen) / 8) ≤ p → p < 5 * s.inLen → symbolBit vals p = false) →
    ∃ t, exec .decode s = .next t ∧ t.respValid = true ∧ t.status = 0 ∧ t.errByte = 0 ∧ t.errPos = 0 ∧
      t.outLen = (5 * s.inLen) / 8 ∧ t.outBuf.length = t.outLen ∧
      ∀ j < t.outLen, ∃ b : Byte, t.outBuf[j]? = some b ∧ ∀ i < 8, b.getLsbD (7 - i) = symbolBit vals (8 * j + i)

/-- 42_decode.md R130, 60_exceptions.md R151, R152: when DECODE accepts, and when it reports which error. -/
def Obligations.DecodeAcceptsExactlyZeroTails : Prop :=
  ∀ s : State, LegalLength s →
    ∃ t, exec .decode s = .next t ∧
      (t.status = 0 ↔ ∃ vals, s.input = List.map v2s vals ∧
        ∀ p, 8 * ((5 * s.inLen) / 8) ≤ p → p < 5 * s.inLen → symbolBit vals p = false) ∧
      (t.status = 1 ↔ ∃ c ∈ s.input, s2v c = none) ∧
      (t.status = 2 ↔ ∃ vals, s.input = List.map v2s vals ∧
        ∃ p, 8 * ((5 * s.inLen) / 8) ≤ p ∧ p < 5 * s.inLen ∧ symbolBit vals p = true)

/-- 42_decode.md R126: the length law of DECODE in both forms. -/
def Obligations.DecodeLengthLaw : Prop :=
  ∀ s t : State, exec .decode s = .next t → t.status = 0 →
    t.outLen = (5 * s.inLen) / 8 ∧
      t.outLen = 5 * (s.inLen / 8) + [0, 0, 1, 1, 2, 3, 3, 4].getD (s.inLen % 8) 0

/-- 42_decode.md R124, which is the spec's own reading of its source (D8, notes/assumptions/14.md): the table of
tail residues. For n symbols: the leftover count r, the bytes the last
n mod 8 symbols give, the bits of the last symbol that land in an output byte, and on which bits of the last
two symbols acceptance depends. -/
def Obligations.DecodeTailFollowsTheTable : Prop :=
  ∀ (s : State) (vals : List SymVal), LegalLength s → s.input = vals.map v2s →
    leftoverCount s.inLen = [0, 5, 2, 7, 4, 1, 6, 3].getD (s.inLen % 8) 0 ∧
      byteCount s.inLen = 5 * (s.inLen / 8) + [0, 0, 1, 1, 2, 3, 3, 4].getD (s.inLen % 8) 0 ∧
      (0 < s.inLen → 8 * byteCount s.inLen - 5 * (s.inLen - 1) = [5, 0, 3, 0, 1, 4, 0, 2].getD (s.inLen % 8) 0) ∧
      ∃ t, exec .decode s = .next t ∧ (tailIsZero vals → t.status = 0 ∧ t.outLen = byteCount s.inLen) ∧
        (¬tailIsZero vals → t.status = 2)

/-- 42_decode.md R125, the spec's own reading (D8, notes/assumptions/14.md): the phantom byte, the r leftover bits at the high end of a byte, is 0 exactly when DECODE
accepts, and it is not in OUT. -/
def Obligations.PhantomByteIsDropped : Prop :=
  ∀ (s : State) (vals : List SymVal), LegalLength s → s.input = vals.map v2s →
    ∃ t, exec .decode s = .next t ∧
      (t.status = 0 ↔
        val (bits5 vals) (8 * byteCount s.inLen) (leftoverCount s.inLen) <<< (8 - leftoverCount s.inLen) = 0) ∧
      (t.status = 0 → t.outLen = byteCount s.inLen ∧ t.outBuf.length = byteCount s.inLen)

/-- 60_exceptions.md R150, R153, R155: only DECODE raises an error, and what each error records. -/
def Obligations.OnlyDecodeRaisesErrors : Prop :=
  ∀ (i : Instr) (s t : State), exec i s = .next t → t.status ≠ 0 →
    i = .decode ∧ t.respValid = true ∧ t.outLen = 0 ∧ t.outBuf = [] ∧
      ((t.status = 1 ∧ s.input[t.errPos]? = some t.errByte ∧ s2v t.errByte = none) ∨
        (t.status = 2 ∧ t.errByte = 0 ∧ t.errPos = 0 ∧ ∀ c ∈ s.input, s2v c ≠ none))

/-- 00_scope.md R5: an input with an uppercase letter or a '=' is answered INVALID_SYMBOL. -/
def Obligations.DecodeRejectsUppercaseAndPaddingMarks : Prop :=
  ∀ (s : State) (c : Byte), LegalLength s → c ∈ s.input → (c = 0x3D#8 ∨ (0x41#8 ≤ c ∧ c ≤ 0x5A#8)) →
    ∃ t, exec .decode s = .next t ∧ t.status = 1 ∧ t.outLen = 0

/-- 42_decode.md R127: the reference sequencing over ACC, NBITS, IDX and OPOS gives the response of R120. -/
def Obligations.DecodeSequenceGivesTheSameResponse : Prop :=
  ∀ s : State, LegalLength s →
    ∃ t, exec .decode s = .next t ∧ (decodeSequence s).visibleResponse = t.visibleResponse ∧
      (decodeSequence s).respValid = true

/-- 42_decode.md R127, its invariants: after n symbols NBITS = 5n mod 8, OPOS = 5n div 8, and the low NBITS bits
of ACC are the last bits of the values. -/
def Obligations.DecodeLoopHoldsItsInvariants : Prop :=
  ∀ (s : State) (vals : List SymVal) (n : Nat), s.input = vals.map v2s → n ≤ s.inLen →
    ∃ t, decodeRounds n (startTransaction s) = .ok t ∧ t.idx = n ∧ t.nbits.toNat = (5 * n) % 8 ∧
      t.nbits.toNat ≤ 7 ∧ t.opos = (5 * n) / 8 ∧
      ∀ j < (5 * n) % 8, t.acc.getLsbD j = symbolBit vals (5 * n - 1 - j)

/-! ### Laws of the two commands together -/

/-- 42_decode.md R128, law 1: DECODE of ENCODE's output answers OK with the bytes ENCODE was given. -/
def Obligations.DecodeOfEncodeIsTheInput : Prop :=
  ∀ s u : State, LegalLength s → LegalLength u →
    ∃ t, exec .encode s = .next t ∧
      (u.input = t.outBuf → ∃ w, exec .decode u = .next w ∧ w.status = 0 ∧ w.outLen = s.inLen ∧ w.outBuf = s.input)

/-- 42_decode.md R128, law 2: for an accepted input of canonical length, ENCODE of DECODE's output is the
input. -/
def Obligations.EncodeOfDecodeAtCanonicalLengths : Prop :=
  ∀ s t u : State, exec .decode s = .next t → t.status = 0 → s.inLen % 8 ∈ [0, 2, 4, 5, 7] →
    LegalLength u → u.input = t.outBuf →
    ∃ w, exec .encode u = .next w ∧ w.status = 0 ∧ w.outBuf = s.input

/-- 42_decode.md R128, law 3: for an accepted input of another length, ENCODE of DECODE's output is the input
without its last symbol. -/
def Obligations.EncodeOfDecodeAtOtherLengths : Prop :=
  ∀ s t u : State, exec .decode s = .next t → t.status = 0 → s.inLen % 8 ∈ [1, 3, 6] →
    LegalLength u → u.input = t.outBuf →
    ∃ w, exec .encode u = .next w ∧ w.status = 0 ∧ w.outBuf = s.input.dropLast
end

