-- ==== Sys2Proof/Laws/State.lean ====
section
/-! SUPPORT. What each shared operation leaves in each field of State, one lemma per field and operation. -/

namespace Sys2Proof.Machine

variable (s : State)

@[simp] theorem startTransaction_maxInLen : (startTransaction s).maxInLen = s.maxInLen := rfl
@[simp] theorem startTransaction_cmd : (startTransaction s).cmd = s.cmd := rfl
@[simp] theorem startTransaction_inLen : (startTransaction s).inLen = s.inLen := rfl
@[simp] theorem startTransaction_inBuf : (startTransaction s).inBuf = s.inBuf := rfl
@[simp] theorem startTransaction_respValid : (startTransaction s).respValid = s.respValid := rfl
@[simp] theorem startTransaction_status : (startTransaction s).status = s.status := rfl
@[simp] theorem startTransaction_outLen : (startTransaction s).outLen = s.outLen := rfl
@[simp] theorem startTransaction_outBuf : (startTransaction s).outBuf = [] := rfl
@[simp] theorem startTransaction_errByte : (startTransaction s).errByte = s.errByte := rfl
@[simp] theorem startTransaction_errPos : (startTransaction s).errPos = s.errPos := rfl
@[simp] theorem startTransaction_acc : (startTransaction s).acc = 0 := rfl
@[simp] theorem startTransaction_nbits : (startTransaction s).nbits = 0 := rfl
@[simp] theorem startTransaction_idx : (startTransaction s).idx = 0 := rfl
@[simp] theorem startTransaction_opos : (startTransaction s).opos = 0 := rfl
@[simp] theorem startTransaction_inFlight : (startTransaction s).inFlight = s.inFlight := rfl
@[simp] theorem startTransaction_refusalMark : (startTransaction s).refusalMark = s.refusalMark := rfl
@[simp] theorem startTransaction_host : (startTransaction s).host = s.host := rfl
@[simp] theorem startTransaction_seen : (startTransaction s).seen = s.seen := rfl
@[simp] theorem startTransaction_inEpoch : (startTransaction s).inEpoch = s.inEpoch := rfl
@[simp] theorem startTransaction_freeCount : (startTransaction s).freeCount = s.freeCount := rfl

@[simp] theorem memWriteOut_maxInLen (j : Nat) (v : Byte) : (memWriteOut j v s).maxInLen = s.maxInLen := rfl
@[simp] theorem memWriteOut_cmd (j : Nat) (v : Byte) : (memWriteOut j v s).cmd = s.cmd := rfl
@[simp] theorem memWriteOut_inLen (j : Nat) (v : Byte) : (memWriteOut j v s).inLen = s.inLen := rfl
@[simp] theorem memWriteOut_inBuf (j : Nat) (v : Byte) : (memWriteOut j v s).inBuf = s.inBuf := rfl
@[simp] theorem memWriteOut_respValid (j : Nat) (v : Byte) : (memWriteOut j v s).respValid = s.respValid := rfl
@[simp] theorem memWriteOut_status (j : Nat) (v : Byte) : (memWriteOut j v s).status = s.status := rfl
@[simp] theorem memWriteOut_outLen (j : Nat) (v : Byte) : (memWriteOut j v s).outLen = s.outLen := rfl
@[simp] theorem memWriteOut_outBuf (j : Nat) (v : Byte) : (memWriteOut j v s).outBuf = s.outBuf.take j ++ v :: s.outBuf.drop (j + 1) := rfl
@[simp] theorem memWriteOut_errByte (j : Nat) (v : Byte) : (memWriteOut j v s).errByte = s.errByte := rfl
@[simp] theorem memWriteOut_errPos (j : Nat) (v : Byte) : (memWriteOut j v s).errPos = s.errPos := rfl
@[simp] theorem memWriteOut_acc (j : Nat) (v : Byte) : (memWriteOut j v s).acc = s.acc := rfl
@[simp] theorem memWriteOut_nbits (j : Nat) (v : Byte) : (memWriteOut j v s).nbits = s.nbits := rfl
@[simp] theorem memWriteOut_idx (j : Nat) (v : Byte) : (memWriteOut j v s).idx = s.idx := rfl
@[simp] theorem memWriteOut_opos (j : Nat) (v : Byte) : (memWriteOut j v s).opos = s.opos := rfl
@[simp] theorem memWriteOut_inFlight (j : Nat) (v : Byte) : (memWriteOut j v s).inFlight = s.inFlight := rfl
@[simp] theorem memWriteOut_refusalMark (j : Nat) (v : Byte) : (memWriteOut j v s).refusalMark = s.refusalMark := rfl
@[simp] theorem memWriteOut_host (j : Nat) (v : Byte) : (memWriteOut j v s).host = s.host := rfl
@[simp] theorem memWriteOut_seen (j : Nat) (v : Byte) : (memWriteOut j v s).seen = s.seen := rfl
@[simp] theorem memWriteOut_inEpoch (j : Nat) (v : Byte) : (memWriteOut j v s).inEpoch = s.inEpoch := rfl
@[simp] theorem memWriteOut_freeCount (j : Nat) (v : Byte) : (memWriteOut j v s).freeCount = s.freeCount := rfl

@[simp] theorem writeResponse_maxInLen (r : Response) : (writeResponse r s).maxInLen = s.maxInLen := rfl
@[simp] theorem writeResponse_cmd (r : Response) : (writeResponse r s).cmd = s.cmd := rfl
@[simp] theorem writeResponse_inLen (r : Response) : (writeResponse r s).inLen = s.inLen := rfl
@[simp] theorem writeResponse_inBuf (r : Response) : (writeResponse r s).inBuf = s.inBuf := rfl
@[simp] theorem writeResponse_respValid (r : Response) : (writeResponse r s).respValid = true := rfl
@[simp] theorem writeResponse_status (r : Response) : (writeResponse r s).status = r.status := rfl
@[simp] theorem writeResponse_outLen (r : Response) : (writeResponse r s).outLen = r.outLen := rfl
@[simp] theorem writeResponse_outBuf (r : Response) : (writeResponse r s).outBuf = r.out := rfl
@[simp] theorem writeResponse_errByte (r : Response) : (writeResponse r s).errByte = r.errByte := rfl
@[simp] theorem writeResponse_errPos (r : Response) : (writeResponse r s).errPos = r.errPos := rfl
@[simp] theorem writeResponse_acc (r : Response) : (writeResponse r s).acc = s.acc := rfl
@[simp] theorem writeResponse_nbits (r : Response) : (writeResponse r s).nbits = s.nbits := rfl
@[simp] theorem writeResponse_idx (r : Response) : (writeResponse r s).idx = s.idx := rfl
@[simp] theorem writeResponse_opos (r : Response) : (writeResponse r s).opos = s.opos := rfl
@[simp] theorem writeResponse_inFlight (r : Response) : (writeResponse r s).inFlight = false := rfl
@[simp] theorem writeResponse_refusalMark (r : Response) : (writeResponse r s).refusalMark = s.refusalMark := rfl
@[simp] theorem writeResponse_host (r : Response) : (writeResponse r s).host = s.host := rfl
@[simp] theorem writeResponse_seen (r : Response) : (writeResponse r s).seen = s.seen := rfl
@[simp] theorem writeResponse_inEpoch (r : Response) : (writeResponse r s).inEpoch = s.inEpoch := rfl
@[simp] theorem writeResponse_freeCount (r : Response) : (writeResponse r s).freeCount = s.freeCount := rfl

@[simp] theorem releaseInternal_maxInLen : (releaseInternal s).maxInLen = s.maxInLen := rfl
@[simp] theorem releaseInternal_cmd : (releaseInternal s).cmd = s.cmd := rfl
@[simp] theorem releaseInternal_inLen : (releaseInternal s).inLen = s.inLen := rfl
@[simp] theorem releaseInternal_inBuf : (releaseInternal s).inBuf = s.inBuf := rfl
@[simp] theorem releaseInternal_respValid : (releaseInternal s).respValid = s.respValid := rfl
@[simp] theorem releaseInternal_status : (releaseInternal s).status = s.status := rfl
@[simp] theorem releaseInternal_outLen : (releaseInternal s).outLen = s.outLen := rfl
@[simp] theorem releaseInternal_outBuf : (releaseInternal s).outBuf = s.outBuf := rfl
@[simp] theorem releaseInternal_errByte : (releaseInternal s).errByte = s.errByte := rfl
@[simp] theorem releaseInternal_errPos : (releaseInternal s).errPos = s.errPos := rfl
@[simp] theorem releaseInternal_acc : (releaseInternal s).acc = Config.freeAcc s.freeCount := rfl
@[simp] theorem releaseInternal_nbits : (releaseInternal s).nbits = BitVec.ofNat 4 (Config.freeNbits s.freeCount).val := rfl
@[simp] theorem releaseInternal_idx : (releaseInternal s).idx = Config.freeIdx s.freeCount := rfl
@[simp] theorem releaseInternal_opos : (releaseInternal s).opos = Config.freeOpos s.freeCount := rfl
@[simp] theorem releaseInternal_inFlight : (releaseInternal s).inFlight = s.inFlight := rfl
@[simp] theorem releaseInternal_refusalMark : (releaseInternal s).refusalMark = s.refusalMark := rfl
@[simp] theorem releaseInternal_host : (releaseInternal s).host = s.host := rfl
@[simp] theorem releaseInternal_seen : (releaseInternal s).seen = s.seen := rfl
@[simp] theorem releaseInternal_inEpoch : (releaseInternal s).inEpoch = s.inEpoch := rfl
@[simp] theorem releaseInternal_freeCount : (releaseInternal s).freeCount = s.freeCount + 1 := rfl

@[simp] theorem observe_maxInLen (d : HostDatum) : (observe d s).maxInLen = s.maxInLen := rfl
@[simp] theorem observe_cmd (d : HostDatum) : (observe d s).cmd = s.cmd := rfl
@[simp] theorem observe_inLen (d : HostDatum) : (observe d s).inLen = s.inLen := rfl
@[simp] theorem observe_inBuf (d : HostDatum) : (observe d s).inBuf = s.inBuf := rfl
@[simp] theorem observe_respValid (d : HostDatum) : (observe d s).respValid = s.respValid := rfl
@[simp] theorem observe_status (d : HostDatum) : (observe d s).status = s.status := rfl
@[simp] theorem observe_outLen (d : HostDatum) : (observe d s).outLen = s.outLen := rfl
@[simp] theorem observe_outBuf (d : HostDatum) : (observe d s).outBuf = s.outBuf := rfl
@[simp] theorem observe_errByte (d : HostDatum) : (observe d s).errByte = s.errByte := rfl
@[simp] theorem observe_errPos (d : HostDatum) : (observe d s).errPos = s.errPos := rfl
@[simp] theorem observe_acc (d : HostDatum) : (observe d s).acc = s.acc := rfl
@[simp] theorem observe_nbits (d : HostDatum) : (observe d s).nbits = s.nbits := rfl
@[simp] theorem observe_idx (d : HostDatum) : (observe d s).idx = s.idx := rfl
@[simp] theorem observe_opos (d : HostDatum) : (observe d s).opos = s.opos := rfl
@[simp] theorem observe_inFlight (d : HostDatum) : (observe d s).inFlight = s.inFlight := rfl
@[simp] theorem observe_refusalMark (d : HostDatum) : (observe d s).refusalMark = s.refusalMark := rfl
@[simp] theorem observe_host (d : HostDatum) : (observe d s).host = s.host := rfl
@[simp] theorem observe_seen (d : HostDatum) : (observe d s).seen = s.seen ++ [d] := rfl
@[simp] theorem observe_inEpoch (d : HostDatum) : (observe d s).inEpoch = s.inEpoch := rfl
@[simp] theorem observe_freeCount (d : HostDatum) : (observe d s).freeCount = s.freeCount := rfl

@[simp] theorem writeInput_maxInLen (bytes : List Byte) : (writeInput bytes s).maxInLen = s.maxInLen := rfl
@[simp] theorem writeInput_cmd (bytes : List Byte) : (writeInput bytes s).cmd = s.cmd := rfl
@[simp] theorem writeInput_inLen (bytes : List Byte) : (writeInput bytes s).inLen = s.inLen := rfl
@[simp] theorem writeInput_respValid (bytes : List Byte) : (writeInput bytes s).respValid = s.respValid := rfl
@[simp] theorem writeInput_status (bytes : List Byte) : (writeInput bytes s).status = s.status := rfl
@[simp] theorem writeInput_outLen (bytes : List Byte) : (writeInput bytes s).outLen = s.outLen := rfl
@[simp] theorem writeInput_outBuf (bytes : List Byte) : (writeInput bytes s).outBuf = s.outBuf := rfl
@[simp] theorem writeInput_errByte (bytes : List Byte) : (writeInput bytes s).errByte = s.errByte := rfl
@[simp] theorem writeInput_errPos (bytes : List Byte) : (writeInput bytes s).errPos = s.errPos := rfl
@[simp] theorem writeInput_acc (bytes : List Byte) : (writeInput bytes s).acc = s.acc := rfl
@[simp] theorem writeInput_nbits (bytes : List Byte) : (writeInput bytes s).nbits = s.nbits := rfl
@[simp] theorem writeInput_idx (bytes : List Byte) : (writeInput bytes s).idx = s.idx := rfl
@[simp] theorem writeInput_opos (bytes : List Byte) : (writeInput bytes s).opos = s.opos := rfl
@[simp] theorem writeInput_inFlight (bytes : List Byte) : (writeInput bytes s).inFlight = s.inFlight := rfl
@[simp] theorem writeInput_refusalMark (bytes : List Byte) : (writeInput bytes s).refusalMark = s.refusalMark := rfl
@[simp] theorem writeInput_host (bytes : List Byte) : (writeInput bytes s).host = s.host := rfl
@[simp] theorem writeInput_seen (bytes : List Byte) : (writeInput bytes s).seen = s.seen := rfl
@[simp] theorem writeInput_inEpoch (bytes : List Byte) : (writeInput bytes s).inEpoch = s.inEpoch + 1 := rfl
@[simp] theorem writeInput_freeCount (bytes : List Byte) : (writeInput bytes s).freeCount = s.freeCount := rfl
@[simp] theorem writeInput_inBuf (bytes : List Byte) : (writeInput bytes s).inBuf =
    match s.maxInLen with
    | none => bytes
    | some m => bytes.take m := rfl

@[simp] theorem resetBlock_maxInLen : (resetBlock s).maxInLen = s.maxInLen := rfl
@[simp] theorem resetBlock_cmd : (resetBlock s).cmd = Config.freeCmd s.inEpoch := rfl
@[simp] theorem resetBlock_inLen : (resetBlock s).inLen = Config.freeInLen s.inEpoch := rfl
@[simp] theorem resetBlock_inBuf : (resetBlock s).inBuf = [] := rfl
@[simp] theorem resetBlock_respValid : (resetBlock s).respValid = false := rfl
@[simp] theorem resetBlock_status : (resetBlock s).status = 0 := rfl
@[simp] theorem resetBlock_outLen : (resetBlock s).outLen = 0 := rfl
@[simp] theorem resetBlock_outBuf : (resetBlock s).outBuf = [] := rfl
@[simp] theorem resetBlock_errByte : (resetBlock s).errByte = 0 := rfl
@[simp] theorem resetBlock_errPos : (resetBlock s).errPos = 0 := rfl
@[simp] theorem resetBlock_acc : (resetBlock s).acc = Config.freeAcc s.freeCount := rfl
@[simp] theorem resetBlock_nbits : (resetBlock s).nbits = BitVec.ofNat 4 (Config.freeNbits s.freeCount).val := rfl
@[simp] theorem resetBlock_idx : (resetBlock s).idx = Config.freeIdx s.freeCount := rfl
@[simp] theorem resetBlock_opos : (resetBlock s).opos = Config.freeOpos s.freeCount := rfl
@[simp] theorem resetBlock_inFlight : (resetBlock s).inFlight = false := rfl
@[simp] theorem resetBlock_refusalMark : (resetBlock s).refusalMark = s.refusalMark := rfl
@[simp] theorem resetBlock_host : (resetBlock s).host = s.host := rfl
@[simp] theorem resetBlock_seen : (resetBlock s).seen = s.seen := rfl
@[simp] theorem resetBlock_inEpoch : (resetBlock s).inEpoch = s.inEpoch + 1 := rfl
@[simp] theorem resetBlock_freeCount : (resetBlock s).freeCount = s.freeCount + 1 := rfl

@[simp] theorem issueRequest_maxInLen : (issueRequest s).maxInLen = s.maxInLen := by
  unfold issueRequest; split <;> rfl
@[simp] theorem issueRequest_cmd : (issueRequest s).cmd = s.cmd := by
  unfold issueRequest; split <;> rfl
@[simp] theorem issueRequest_inLen : (issueRequest s).inLen = s.inLen := by
  unfold issueRequest; split <;> rfl
@[simp] theorem issueRequest_inBuf : (issueRequest s).inBuf = s.inBuf := by
  unfold issueRequest; split <;> rfl
@[simp] theorem issueRequest_respValid : (issueRequest s).respValid = false := by
  unfold issueRequest; split <;> simp [*]
@[simp] theorem issueRequest_status : (issueRequest s).status = s.status := by
  unfold issueRequest; split <;> rfl
@[simp] theorem issueRequest_outLen : (issueRequest s).outLen = s.outLen := by
  unfold issueRequest; split <;> rfl
@[simp] theorem issueRequest_outBuf : (issueRequest s).outBuf = s.outBuf := by
  unfold issueRequest; split <;> rfl
@[simp] theorem issueRequest_errByte : (issueRequest s).errByte = s.errByte := by
  unfold issueRequest; split <;> rfl
@[simp] theorem issueRequest_errPos : (issueRequest s).errPos = s.errPos := by
  unfold issueRequest; split <;> rfl
@[simp] theorem issueRequest_acc : (issueRequest s).acc = s.acc := by
  unfold issueRequest; split <;> rfl
@[simp] theorem issueRequest_nbits : (issueRequest s).nbits = s.nbits := by
  unfold issueRequest; split <;> rfl
@[simp] theorem issueRequest_idx : (issueRequest s).idx = s.idx := by
  unfold issueRequest; split <;> rfl
@[simp] theorem issueRequest_opos : (issueRequest s).opos = s.opos := by
  unfold issueRequest; split <;> rfl
@[simp] theorem issueRequest_inFlight : (issueRequest s).inFlight = ((requestRefusal s).isNone || s.inFlight) := by
  unfold issueRequest; split <;> simp [*]
@[simp] theorem issueRequest_refusalMark : (issueRequest s).refusalMark = (requestRefusal s).or s.refusalMark := by
  unfold issueRequest; split <;> simp [*]
@[simp] theorem issueRequest_host : (issueRequest s).host = s.host := by
  unfold issueRequest; split <;> rfl
@[simp] theorem issueRequest_seen : (issueRequest s).seen = s.seen := by
  unfold issueRequest; split <;> rfl
@[simp] theorem issueRequest_inEpoch : (issueRequest s).inEpoch = s.inEpoch := by
  unfold issueRequest; split <;> rfl
@[simp] theorem issueRequest_freeCount : (issueRequest s).freeCount = s.freeCount := by
  unfold issueRequest; split <;> rfl

/-- The response registers after a response is written hold that response (10_state.md R25). -/
@[simp] theorem writeResponse_response (r : Response) : (writeResponse r s).response = r := rfl

@[simp] theorem releaseInternal_response : (releaseInternal s).response = s.response := rfl

@[simp] theorem writeResponse_visibleResponse (r : Response) : (writeResponse r s).visibleResponse = some r := rfl

@[simp] theorem releaseInternal_visibleResponse : (releaseInternal s).visibleResponse = s.visibleResponse := rfl

end Sys2Proof.Machine
end

