-- ==== Sys2Proof/Laws/Bits.lean ====
section
/-! SUPPORT. The laws of bit sequences: their lengths, their bits, and the bits of `val`. -/

namespace Sys2Proof.Machine

@[simp] theorem length_bitsOf {w : Nat} (x : BitVec w) : (bitsOf x).length = w := by simp [bitsOf]

theorem getD_bitsOf {w : Nat} (x : BitVec w) {t : Nat} (ht : t < w) :
    (bitsOf x).getD t false = x.getLsbD (w - 1 - t) := by
  simp [bitsOf, List.getD_eq_getElem?_getD, ht]

theorem length_flatMap_bitsOf {w : Nat} (xs : List (BitVec w)) : (xs.flatMap bitsOf).length = w * xs.length := by
  induction xs with
  | nil => simp
  | cons x xs ih => simp [ih, Nat.mul_add, Nat.add_comm]

@[simp] theorem length_bits8 (bytes : List Byte) : (bits8 bytes).length = 8 * bytes.length :=
  length_flatMap_bitsOf bytes

@[simp] theorem length_bits5 (vals : List SymVal) : (bits5 vals).length = 5 * vals.length :=
  length_flatMap_bitsOf vals

/-- Bit p of a concatenation of w-bit values is bit w − 1 − p mod w of value p div w (00_scope.md R10). -/
theorem getD_flatMap_bitsOf {w : Nat} (hw : 0 < w) (xs : List (BitVec w)) (p : Nat) :
    (xs.flatMap bitsOf).getD p false = (xs.getD (p / w) 0).getLsbD (w - 1 - p % w) := by
  induction xs generalizing p with
  | nil => simp
  | cons x xs ih =>
    rw [List.flatMap_cons]
    rcases Nat.lt_or_ge p w with h | h
    · rw [List.getD_append _ _ _ _ (by simpa using h), getD_bitsOf x h]
      simp [Nat.div_eq_of_lt h, Nat.mod_eq_of_lt h]
    · rw [List.getD_append_right _ _ _ _ (by simpa using h), length_bitsOf, ih]
      obtain ⟨q, rfl⟩ : ∃ q, p = q + w := ⟨p - w, by omega⟩
      simp [Nat.add_div_right _ hw]

theorem getD_bits8 (bytes : List Byte) (p : Nat) :
    (bits8 bytes).getD p false = (bytes.getD (p / 8) 0).getLsbD (7 - p % 8) :=
  getD_flatMap_bitsOf (by decide) bytes p

theorem getD_bits5 (vals : List SymVal) (p : Nat) :
    (bits5 vals).getD p false = (vals.getD (p / 5) 0).getLsbD (4 - p % 5) :=
  getD_flatMap_bitsOf (by decide) vals p

theorem bits8_append (a b : List Byte) : bits8 (a ++ b) = bits8 a ++ bits8 b := by simp [bits8]

theorem bits5_append (a b : List SymVal) : bits5 (a ++ b) = bits5 a ++ bits5 b := by simp [bits5]

@[simp] theorem natOfBits_nil : natOfBits [] = 0 := rfl

@[simp] theorem natOfBits_concat (bits : List Bit) (b : Bit) :
    natOfBits (bits ++ [b]) = 2 * natOfBits bits + b.toNat := by simp [natOfBits]

theorem natOfBits_lt (bits : List Bit) : natOfBits bits < 2 ^ bits.length := by
  induction bits using List.reverseRecOn with
  | nil => simp
  | append_singleton bits b ih =>
    have := b.toNat_le
    simp only [natOfBits_concat, List.length_append, List.length_singleton, Nat.pow_succ]
    omega

/-- Bit i of the number a bit sequence writes is the i-th bit from its right end. -/
theorem testBit_natOfBits (bits : List Bit) {i : Nat} (hi : i < bits.length) :
    (natOfBits bits).testBit i = bits.getD (bits.length - 1 - i) false := by
  induction bits using List.reverseRecOn generalizing i with
  | nil => simp at hi
  | append_singleton bits b ih =>
    rw [natOfBits_concat]
    cases i with
    | zero =>
      rw [List.getD_append_right _ _ _ _ (by simp)]
      cases b <;> simp [Nat.testBit_zero]
    | succ i =>
      have hi' : i < bits.length := by simpa using hi
      have hb := b.toNat_le
      rw [Nat.testBit_succ, show (2 * natOfBits bits + b.toNat) / 2 = natOfBits bits by
        cases b
        · simp
        · simp; omega, ih hi']
      rw [List.getD_append _ _ _ _ (by simp; omega)]
      congr 1
      simp
      omega

theorem natOfBits_append (a b : List Bit) : natOfBits (a ++ b) = natOfBits a * 2 ^ b.length + natOfBits b := by
  induction b using List.reverseRecOn with
  | nil => simp
  | append_singleton b x ih =>
    rw [← List.append_assoc, natOfBits_concat, natOfBits_concat, ih, List.length_append, List.length_singleton,
      Nat.pow_succ]
    ring

/-- A bit sequence writes 0 exactly when it holds no 1. -/
theorem natOfBits_eq_zero_iff (bits : List Bit) : natOfBits bits = 0 ↔ ∀ b ∈ bits, b = false := by
  induction bits using List.reverseRecOn with
  | nil => simp
  | append_singleton bits b ih =>
    rw [natOfBits_concat]
    cases b <;> simp [ih]

theorem val_lt (bits : List Bit) (p w : Nat) : val bits p w < 2 ^ w :=
  Nat.lt_of_lt_of_le (natOfBits_lt _) (Nat.pow_le_pow_right (by decide) (by simp))

/-- Bit w − 1 − t of `val(B, p, w)` is bit p + t of B (00_scope.md R10). -/
theorem testBit_val {bits : List Bit} {p w t : Nat} (h : p + w ≤ bits.length) (ht : t < w) :
    (val bits p w).testBit (w - 1 - t) = bits.getD (p + t) false := by
  have hlen : ((bits.drop p).take w).length = w := by simp; omega
  rw [val, testBit_natOfBits _ (by omega), hlen]
  simp only [List.getD_eq_getElem?_getD, List.getElem?_take, List.getElem?_drop]
  rw [if_pos (by omega), show p + (w - 1 - (w - 1 - t)) = p + t by omega]

/-- Two numbers of w bits with the same w bits are equal. -/
theorem val_eq_iff {bits : List Bit} {p w n : Nat} (h : p + w ≤ bits.length) (hn : n < 2 ^ w) :
    val bits p w = n ↔ ∀ t < w, bits.getD (p + t) false = n.testBit (w - 1 - t) := by
  constructor
  · rintro rfl t ht
    exact (testBit_val h ht).symm
  · intro hb
    apply Nat.eq_of_testBit_eq
    intro i
    rcases Nat.lt_or_ge i w with hi | hi
    · have := hb (w - 1 - i) (by omega)
      rw [← testBit_val h (by omega), show w - 1 - (w - 1 - i) = i by omega] at this
      exact this
    · rw [Nat.testBit_lt_two_pow (Nat.lt_of_lt_of_le (val_lt bits p w) (Nat.pow_le_pow_right (by decide) hi)),
        Nat.testBit_lt_two_pow (Nat.lt_of_lt_of_le hn (Nat.pow_le_pow_right (by decide) hi))]

/-- `val(B, p, w)` is 0 exactly when its w bits are 0. -/
theorem val_eq_zero_iff {bits : List Bit} {p w : Nat} (h : p + w ≤ bits.length) :
    val bits p w = 0 ↔ ∀ t < w, bits.getD (p + t) false = false := by
  rw [val_eq_iff h (Nat.two_pow_pos w)]
  simp

end Sys2Proof.Machine
end

