-- ==== Sys2Proof/Laws/Rom.lean ====
section
/-! SUPPORT. The laws of the two lookups (40_alphabet_rom.md R84). -/

namespace Sys2Proof.Machine

@[simp] theorem s2v_v2s (v : SymVal) : s2v (v2s v) = some v := by
  revert v; decide

theorem v2s_of_s2v {c : Byte} {v : SymVal} (h : s2v c = some v) : v2s v = c := by
  revert c v; decide +kernel

theorem v2s_injective {v w : SymVal} (h : v2s v = v2s w) : v = w := by
  have := congrArg s2v h
  simpa using this

theorem s2v_eq_some_iff {c : Byte} {v : SymVal} : s2v c = some v ↔ c = v2s v :=
  ⟨fun h => (v2s_of_s2v h).symm, fun h => h ▸ s2v_v2s v⟩

end Sys2Proof.Machine
end

