-- ==== Sys2Proof/Laws/Pack.lean ====
section
/-! SUPPORT. The laws of the packer (41_encode.md R100 to R102). -/

namespace Sys2Proof.Machine

/-- Two bit sequences of one length with the same bits are equal. -/
theorem bits_ext {a b : List Bit} (hl : a.length = b.length)
    (h : ∀ p < a.length, a.getD p false = b.getD p false) : a = b := by
  apply List.ext_getElem hl
  intro p h₁ h₂
  simpa [List.getD_eq_getElem?_getD, h₁, h₂] using h p h₁

/-- N is the least number of 5-bit groups that holds 8L bits (R101). -/
theorem symbolCount_bounds (len : Nat) : 8 * len ≤ 5 * symbolCount len ∧ 5 * symbolCount len < 8 * len + 5 := by
  unfold symbolCount ceilDiv
  omega

theorem length_paddedBits (bytes : List Byte) : (paddedBits bytes).length = 5 * symbolCount bytes.length := by
  have := symbolCount_bounds bytes.length
  simp only [paddedBits, padCount, List.length_append, length_bits8, List.length_replicate]
  omega

/-- The padded sequence holds the input bits, then zeros (R100). -/
theorem getD_paddedBits (bytes : List Byte) (p : Nat) :
    (paddedBits bytes).getD p false = (bits8 bytes).getD p false := by
  rcases Nat.lt_or_ge p (bits8 bytes).length with h | h
  · rw [paddedBits, List.getD_append _ _ _ _ h]
  · rw [paddedBits, List.getD_append_right _ _ _ _ h]
    simp only [List.getD_eq_getElem?_getD, List.getElem?_replicate, List.getElem?_eq_none h]
    split <;> rfl

@[simp] theorem length_packGroups (bytes : List Byte) : (packGroups bytes).length = symbolCount bytes.length := by
  simp [packGroups]

@[simp] theorem length_packSymbols (bytes : List Byte) : (packSymbols bytes).length = symbolCount bytes.length := by
  simp [packSymbols]

/-- Bit 4 − t of group k is bit 5k + t of the padded sequence (R100, 20_memory.md R43). -/
theorem getLsbD_packGroups (bytes : List Byte) {k t : Nat} (hk : k < symbolCount bytes.length) (ht : t < 5) :
    ((packGroups bytes).getD k 0).getLsbD (4 - t) = (bits8 bytes).getD (5 * k + t) false := by
  have h : 5 * k + 5 ≤ (paddedBits bytes).length := by rw [length_paddedBits]; omega
  rw [← getD_paddedBits, ← testBit_val h ht]
  simp only [packGroups, List.getD_eq_getElem?_getD, List.getElem?_map]
  rw [List.getElem?_range hk]
  simp only [Option.map_some, Option.getD_some, BitVec.getLsbD_ofNat]
  rw [decide_eq_true (by omega : 4 - t < 5), Bool.true_and]

/-- The groups, written out as bits again, are the padded sequence (R100). -/
theorem bits5_packGroups (bytes : List Byte) : bits5 (packGroups bytes) = paddedBits bytes := by
  apply bits_ext
  · rw [length_bits5, length_packGroups, length_paddedBits]
  · intro p hp
    rw [length_bits5, length_packGroups] at hp
    rw [getD_bits5, getLsbD_packGroups _ (by omega) (by omega), getD_paddedBits]
    congr 1
    omega

end Sys2Proof.Machine
end

