-- ==== Sys2Proof/Laws/Unpack.lean ====
section
/-! SUPPORT. The laws of the unpacker and its validator (42_decode.md R120 to R126). -/

namespace Sys2Proof.Machine

/-- Phase 1 succeeds exactly on the symbols of some values, and gives those values (R121). -/
theorem mapSymbols_eq_ok_iff {pos : Nat} {bytes : List Byte} {vals : List SymVal} :
    mapSymbols pos bytes = .ok vals ↔ bytes = vals.map v2s := by
  induction bytes generalizing pos vals with
  | nil => cases vals <;> simp [mapSymbols]
  | cons c cs ih =>
    cases hc : s2v c with
    | none =>
      cases vals with
      | nil => simp [mapSymbols, hc]
      | cons v vs =>
        simp only [mapSymbols, hc, List.map_cons, List.cons.injEq, reduceCtorEq, false_iff, not_and]
        rintro rfl
        simp at hc
    | some v =>
      have hv := s2v_eq_some_iff.mp hc
      cases hm : mapSymbols (pos + 1) cs with
      | error e =>
        cases vals with
        | nil => simp [mapSymbols, hc, hm]
        | cons w ws =>
          simp only [mapSymbols, hc, hm, List.map_cons, List.cons.injEq, reduceCtorEq, false_iff, not_and]
          intro _ hcs
          rw [← ih (pos := pos + 1), hm] at hcs
          cases hcs
      | ok vs =>
        have hcs := ih.mp hm
        cases vals with
        | nil => simp [mapSymbols, hc, hm]
        | cons w ws =>
          simp only [mapSymbols, hc, hm, Except.ok.injEq, List.cons.injEq, List.map_cons]
          rw [← ih (pos := pos + 1), hm, hv]
          simp only [Except.ok.injEq]
          exact and_congr_left fun _ => ⟨congrArg v2s, v2s_injective⟩

/-- Phase 1 fails exactly at the first byte that is no symbol, with that byte and its index (R121). -/
theorem mapSymbols_eq_error_iff {pos : Nat} {bytes : List Byte} {e : CodecError} :
    mapSymbols pos bytes = .error e ↔
      ∃ vals c rest, bytes = List.map v2s vals ++ c :: rest ∧ s2v c = none ∧ e = .invalidSymbol c (pos + vals.length) := by
  induction bytes generalizing pos e with
  | nil => simp [mapSymbols]
  | cons c cs ih =>
    cases hc : s2v c with
    | none =>
      simp only [mapSymbols, hc, Except.error.injEq]
      constructor
      · rintro rfl
        exact ⟨[], c, cs, by simp, hc, by simp⟩
      · rintro ⟨vals, d, rest, hb, hd, rfl⟩
        cases vals with
        | nil =>
          simp only [List.map_nil, List.nil_append, List.cons.injEq] at hb
          simp [hb.1]
        | cons v vs =>
          simp only [List.map_cons, List.cons_append, List.cons.injEq] at hb
          rw [hb.1, s2v_v2s] at hc
          cases hc
    | some v =>
      have hv := s2v_eq_some_iff.mp hc
      have hstep : mapSymbols pos (c :: cs) = .error e ↔ mapSymbols (pos + 1) cs = .error e := by
        cases hm : mapSymbols (pos + 1) cs <;> simp [mapSymbols, hc, hm]
      rw [hstep, ih]
      constructor
      · rintro ⟨vals, d, rest, hb, hd, rfl⟩
        exact ⟨v :: vals, d, rest, by simp [hv, hb], hd, by simp; omega⟩
      · rintro ⟨vals, d, rest, hb, hd, rfl⟩
        cases vals with
        | nil =>
          simp only [List.map_nil, List.nil_append, List.cons.injEq] at hb
          rw [← hb.1, hc] at hd
          cases hd
        | cons w ws =>
          simp only [List.map_cons, List.cons_append, List.cons.injEq] at hb
          exact ⟨ws, d, rest, hb.2, hd, by simp; omega⟩

/-- 8M + r = 5n (R123). -/
theorem byteCount_leftoverCount (n : Nat) : 8 * byteCount n + leftoverCount n = 5 * n := by
  unfold byteCount leftoverCount
  omega

@[simp] theorem length_unpackBytes (vals : List SymVal) : (unpackBytes vals).length = byteCount vals.length := by
  simp [unpackBytes]

/-- Bit 7 − t of output byte j is bit 8j + t of the bits of the values (R122). -/
theorem getLsbD_unpackBytes (vals : List SymVal) {j t : Nat} (hj : j < byteCount vals.length) (ht : t < 8) :
    ((unpackBytes vals).getD j 0).getLsbD (7 - t) = (bits5 vals).getD (8 * j + t) false := by
  have h : 8 * j + 8 ≤ (bits5 vals).length := by
    have := byteCount_leftoverCount vals.length
    rw [length_bits5]
    omega
  rw [← testBit_val h ht]
  simp only [unpackBytes, List.getD_eq_getElem?_getD, List.getElem?_map]
  rw [List.getElem?_range hj]
  simp only [Option.map_some, Option.getD_some, BitVec.getLsbD_ofNat]
  rw [decide_eq_true (by omega : 7 - t < 8), Bool.true_and]

/-- The output bytes, written out as bits, are the bits of the values without the leftover bits (R122, R123). -/
theorem bits8_unpackBytes (vals : List SymVal) :
    bits8 (unpackBytes vals) = (bits5 vals).take (8 * byteCount vals.length) := by
  have hn := byteCount_leftoverCount vals.length
  apply bits_ext
  · simp only [length_bits8, length_unpackBytes, List.length_take, length_bits5]
    omega
  · intro p hp
    rw [length_bits8, length_unpackBytes] at hp
    rw [getD_bits8, getLsbD_unpackBytes _ (by omega) (by omega)]
    simp only [List.getD_eq_getElem?_getD, List.getElem?_take]
    rw [if_pos hp]
    congr 2
    omega

/-- The leftover value is 0 exactly when every leftover bit is 0 (R123). -/
theorem leftoverVal_eq_zero_iff (vals : List SymVal) :
    leftoverVal vals = 0 ↔
      ∀ p, 8 * byteCount vals.length ≤ p → p < 5 * vals.length → (bits5 vals).getD p false = false := by
  have hn := byteCount_leftoverCount vals.length
  rw [leftoverVal, val_eq_zero_iff (by rw [length_bits5]; omega)]
  constructor
  · intro h p h₁ h₂
    have := h (p - 8 * byteCount vals.length) (by omega)
    rwa [show 8 * byteCount vals.length + (p - 8 * byteCount vals.length) = p by omega] at this
  · intro h t ht
    exact h _ (by omega) (by omega)

/-- With no leftover bits the leftover value is 0 (R123). -/
theorem leftoverVal_of_leftoverCount {vals : List SymVal} (h : leftoverCount vals.length = 0) : leftoverVal vals = 0 := by
  simp [leftoverVal, h, val]

/-- What DECODE makes of the symbols of some values (R120). -/
theorem decodeSymbols_map_v2s (vals : List SymVal) :
    decodeSymbols (vals.map v2s) = if leftoverVal vals = 0 then .ok (unpackBytes vals) else .error .invalidPadding := by
  simp only [decodeSymbols, mapSymbols_eq_ok_iff.mpr rfl]
  by_cases h : leftoverVal vals = 0
  · simp [h]
  · have : leftoverCount vals.length ≠ 0 := fun h' => h (leftoverVal_of_leftoverCount h')
    simp [h, Nat.pos_of_ne_zero this]

/-- What DECODE makes of any input: all its bytes are symbols, or the first that is none is reported (R120, R121). -/
theorem decodeSymbols_cases (bytes : List Byte) :
    (∃ vals, bytes = List.map v2s vals ∧
        decodeSymbols bytes = if leftoverVal vals = 0 then .ok (unpackBytes vals) else .error .invalidPadding) ∨
      (∃ vals c rest, bytes = List.map v2s vals ++ c :: rest ∧ s2v c = none ∧
        decodeSymbols bytes = .error (.invalidSymbol c vals.length)) := by
  cases hm : mapSymbols 0 bytes with
  | ok vals =>
    have hb := mapSymbols_eq_ok_iff.mp hm
    exact .inl ⟨vals, hb, hb ▸ decodeSymbols_map_v2s vals⟩
  | error e =>
    obtain ⟨vals, c, rest, hb, hc, rfl⟩ := mapSymbols_eq_error_iff.mp hm
    exact .inr ⟨vals, c, rest, hb, hc, by simp [decodeSymbols, hm]⟩

end Sys2Proof.Machine
end

