-- ==== Sys2Proof/Laws/Exec.lean ====
section
/-! SUPPORT. What a command can do, said once: `exec_eq` and `exec_eq_next_iff`. Every claim about a meaning
cites these instead of unfolding it. -/

namespace Sys2Proof.Machine

@[simp] theorem length_input (s : State) : s.input.length = s.inLen := by simp [State.input]

theorem getElem_input (s : State) {i : Nat} (h : i < s.inLen) : s.input[i]'(by simpa using h) = memReadIn s i := by
  simp [State.input]

/-- Where the host has written IN_LEN bytes, they are the operand (30_encoding.md R64). -/
theorem input_eq_inBuf {s : State} (h : s.inBuf.length = s.inLen) : s.input = s.inBuf := by
  apply List.ext_getElem (by simp [h])
  intro i h₁ h₂
  simp [State.input, memReadIn, h₂]

/-- The length check (30_encoding.md R65). -/
theorem lenLegal_iff {s : State} : s.lenLegal = true ↔ ∀ m, s.maxInLen = some m → s.inLen ≤ m := by
  unfold State.lenLegal
  cases s.maxInLen <;> simp

/-- Writing bytes to OUT from an index it has, or the next one, on. -/
theorem writeOut_eq {j : Nat} {vs : List Byte} {s : State} (hj : j ≤ s.outBuf.length) :
    writeOut j vs s = { s with outBuf := s.outBuf.take j ++ vs ++ s.outBuf.drop (j + vs.length) } := by
  induction vs generalizing j s with
  | nil => simp [writeOut]
  | cons v vs ih =>
    have hlen : (s.outBuf.take j ++ [v]).length = j + 1 := by simp [hj]
    have hsplit : (memWriteOut j v s).outBuf = (s.outBuf.take j ++ [v]) ++ s.outBuf.drop (j + 1) := by simp
    rw [writeOut, ih (by rw [hsplit]; simp; omega), hsplit]
    simp only [memWriteOut, State.mk.injEq, true_and, and_true]
    rw [List.take_left' hlen, ← hlen, List.drop_append, List.drop_eq_nil_of_le (by omega), List.drop_drop, hlen]
    simp only [List.append_assoc, List.nil_append, List.singleton_append, List.length_cons]
    rw [show j + 1 + (j + 1 + vs.length - (j + 1)) = j + (vs.length + 1) by omega]

/-- Writing bytes to an empty OUT. -/
theorem writeOut_zero {vs : List Byte} {s : State} (h : s.outBuf = []) : writeOut 0 vs s = { s with outBuf := vs } := by
  rw [writeOut_eq (by omega), h]
  simp

/-- The response a command gives to an input (R100, R120). -/
def answer (i : Instr) (bytes : List Byte) : Response :=
  match i with
  | .encode => okResponse (packSymbols bytes)
  | .decode =>
    match decodeSymbols bytes with
    | .error e => errorResponse e
    | .ok out => okResponse out

theorem answer_encode (bytes : List Byte) : answer .encode bytes = okResponse (packSymbols bytes) := rfl

/-- DECODE's response to the symbols of some values (R120). -/
theorem answer_decode_map_v2s (vals : List SymVal) :
    answer .decode (vals.map v2s) =
      if leftoverVal vals = 0 then okResponse (unpackBytes vals) else errorResponse .invalidPadding := by
  unfold answer
  simp only [decodeSymbols_map_v2s]
  by_cases h : leftoverVal vals = 0 <;> simp [h]

/-- DECODE's response to an input with a byte that is no symbol, the first such (R121). -/
theorem answer_decode_invalid {vals : List SymVal} {c : Byte} {rest : List Byte} (hc : s2v c = none) :
    answer .decode (List.map v2s vals ++ c :: rest) = errorResponse (.invalidSymbol c vals.length) := by
  have : mapSymbols 0 (List.map v2s vals ++ c :: rest) = .error (.invalidSymbol c vals.length) :=
    mapSymbols_eq_error_iff.mpr ⟨vals, c, rest, rfl, hc, by simp⟩
  simp [answer, decodeSymbols, this]

/-- The state a transaction ends in: the response is written, the internal registers are unspecified. -/
def answered (i : Instr) (s : State) : State := releaseInternal (writeResponse (answer i s.input) s)

/-- A command, whole: a legal length is answered, another is refused (R65, R100, R120). -/
theorem exec_eq (i : Instr) (s : State) :
    exec i s = if s.lenLegal then .next (answered i s) else .refused .inputTooLong := by
  cases i with
  | encode =>
    show execEncode s = _
    unfold execEncode
    congr 2
    rw [writeOut_zero rfl]
    have : List.take (symbolCount s.inLen) (packSymbols s.input) = packSymbols s.input :=
      List.take_of_length_le (by simp)
    simp only [respondOk, this]
    rfl
  | decode =>
    show execDecode s = _
    unfold execDecode
    congr 1
    have hans : answered .decode s = releaseInternal (writeResponse (match decodeSymbols s.input with
      | .error e => errorResponse e
      | .ok out => okResponse out) s) := rfl
    rw [hans]
    rcases decodeSymbols_cases s.input with ⟨vals, hb, hd⟩ | ⟨vals, c, rest, -, -, hd⟩
    · rw [hd]
      by_cases h : leftoverVal vals = 0
      · simp only [h, if_true]
        rw [writeOut_zero rfl]
        have hlen : vals.length = s.inLen := by rw [← length_input s, hb, List.length_map]
        have : List.take (byteCount s.inLen) (unpackBytes vals) = unpackBytes vals :=
          List.take_of_length_le (by simp [hlen])
        simp only [respondOk, this]
        rfl
      · simp only [h, if_false]
        rfl
    · rw [hd]
      rfl

/-- A command answers a next state exactly when IN_LEN is legal, and this one. -/
theorem exec_eq_next_iff {i : Instr} {s t : State} : exec i s = .next t ↔ s.lenLegal = true ∧ t = answered i s := by
  rw [exec_eq]
  by_cases h : s.lenLegal = true
  · simp [h, eq_comm]
  · simp [h]

theorem exec_of_lenLegal {s : State} (i : Instr) (h : s.lenLegal = true) : exec i s = .next (answered i s) :=
  exec_eq_next_iff.mpr ⟨h, rfl⟩

theorem exec_eq_refused_iff {i : Instr} {s : State} {r : Refusal} :
    exec i s = .refused r ↔ s.lenLegal = false ∧ r = .inputTooLong := by
  rw [exec_eq]
  cases s.lenLegal <;> simp [eq_comm]

theorem exec_ne_fault {i : Instr} {s : State} {f : Fault} : exec i s ≠ .fault f := by
  rw [exec_eq]
  cases s.lenLegal <;> simp

/-- What a command leaves in the response registers. -/
@[simp] theorem answered_response (i : Instr) (s : State) : (answered i s).response = answer i s.input := rfl

@[simp] theorem answered_visibleResponse (i : Instr) (s : State) :
    (answered i s).visibleResponse = some (answer i s.input) := rfl

end Sys2Proof.Machine
end

