-- ==== Sys2Proof/Laws/Step.lean ====
section
/-! SUPPORT. What a step can do, said once, with the laws of turns, host moves and the buffers' form. -/

namespace Sys2Proof.Machine

/-- When the block moves. -/
theorem turn_eq_block_iff {s : State} :
    turn s = .block ↔ s.refusalMark = none ∧ s.inFlight = true ∧ ∀ m ∈ s.host.head?, m.mayInterrupt = false := by
  unfold turn
  cases s.refusalMark <;> cases s.host <;> cases s.inFlight <;> simp <;> split <;> simp_all

/-- When the host moves, and with which move. -/
theorem turn_eq_host_iff {s : State} {m : HostMove} {rest : List HostMove} :
    turn s = .host m rest ↔ s.host = m :: rest ∧
      ((s.refusalMark.isSome = true ∧ m.isRead = true) ∨
        (s.refusalMark = none ∧ s.inFlight = true ∧ m.mayInterrupt = true) ∨
        (s.refusalMark = none ∧ s.inFlight = false ∧ ¬(m = .await ∧ s.respValid = false))) := by
  unfold turn
  cases s.refusalMark <;> cases s.host <;> cases s.inFlight <;> simp <;> split <;> simp_all <;>
    (rintro rfl; simp_all)

/-- When a refused request has ended the run. -/
theorem turn_eq_stopped_iff {s : State} {r : Refusal} :
    turn s = .stopped r ↔ s.refusalMark = some r ∧ ∀ m ∈ s.host.head?, m.isRead = false := by
  unfold turn
  cases s.refusalMark <;> cases s.host <;> cases s.inFlight <;> simp <;> split <;> simp_all

/-- When nobody moves. -/
theorem turn_eq_idle_iff {s : State} :
    turn s = .idle ↔ s.refusalMark = none ∧ s.inFlight = false ∧
      (s.host = [] ∨ s.respValid = false ∧ ∃ rest, s.host = .await :: rest) := by
  unfold turn
  cases s.refusalMark with
  | some r => cases s.host <;> simp <;> split <;> exact Turn.noConfusion
  | none =>
    cases s.host with
    | nil => cases s.inFlight <;> simp
    | cons m rest =>
      cases s.inFlight with
      | true => simp; split <;> exact Turn.noConfusion
      | false => simp [and_comm]

theorem step_of_block {s : State} {i : Instr} (ht : turn s = .block) (hf : fetch s = .ok i) : step s = exec i s := by
  simp only [step, ht, hf]

theorem step_of_host {s : State} {m : HostMove} {rest : List HostMove} (ht : turn s = .host m rest) :
    step s = hostMove m { s with host := rest } := by
  simp only [step, ht]

theorem step_of_idle {s : State} (ht : turn s = .idle) : step s = .next s := by
  simp only [step, ht]

theorem step_of_stopped {s : State} {r : Refusal} (ht : turn s = .stopped r) : step s = .refused r := by
  simp only [step, ht]

/-- The three ways a step answers a next state. -/
theorem step_cases {s t : State} (h : step s = .next t) :
    (turn s = .idle ∧ t = s) ∨
      (∃ m rest, turn s = .host m rest ∧ hostMove m { s with host := rest } = .next t) ∨
      (∃ i, turn s = .block ∧ fetch s = .ok i ∧ s.lenLegal = true ∧ t = answered i s) := by
  cases ht : turn s with
  | idle => exact .inl ⟨rfl, by simpa [step, ht] using h.symm⟩
  | stopped r => simp [step, ht] at h
  | host m rest => exact .inr (.inl ⟨m, rest, rfl, by simpa [step, ht] using h⟩)
  | block =>
    cases hf : fetch s with
    | error r => simp [step, ht, hf] at h
    | ok i =>
      rw [step_of_block ht hf, exec_eq_next_iff] at h
      exact .inr (.inr ⟨i, rfl, rfl, h⟩)

/-- The host moves that answer a next state, with that state. -/
theorem hostMove_cases {m : HostMove} {s t : State} (h : hostMove m s = .next t) :
    (∃ d, m.isRead = true ∧ t = observe d s) ∨ (∃ c, m = .writeCmd c ∧ t = { s with cmd := c }) ∨
      (∃ n, m = .writeInLen n ∧ t = { s with inLen := n }) ∨
      (∃ bytes, m = .writeIn bytes ∧ t = writeInput bytes s) ∨ (m = .issue ∧ t = issueRequest s) ∨
      (m = .await ∧ t = s) ∨ (m = .reset ∧ t = resetBlock s) := by
  cases m with
  | writeCmd c => exact .inr (.inl ⟨c, rfl, by simpa [hostMove] using h.symm⟩)
  | writeInLen n => exact .inr (.inr (.inl ⟨n, rfl, by simpa [hostMove] using h.symm⟩))
  | writeIn bytes => exact .inr (.inr (.inr (.inl ⟨bytes, rfl, by simpa [hostMove] using h.symm⟩)))
  | issue => exact .inr (.inr (.inr (.inr (.inl ⟨rfl, by simpa [hostMove] using h.symm⟩))))
  | await => exact .inr (.inr (.inr (.inr (.inr (.inl ⟨rfl, by simpa [hostMove] using h.symm⟩)))))
  | reset => exact .inr (.inr (.inr (.inr (.inr (.inr ⟨rfl, by simpa [hostMove] using h.symm⟩)))))
  | readRespValid => exact .inl ⟨_, rfl, by simpa [hostMove] using h.symm⟩
  | readStatus =>
    simp only [hostMove, readResponse] at h
    split at h
    · exact .inl ⟨_, rfl, by simpa using h.symm⟩
    · cases h
  | readOutLen =>
    simp only [hostMove, readResponse] at h
    split at h
    · exact .inl ⟨_, rfl, by simpa using h.symm⟩
    · cases h
  | readErrByte =>
    simp only [hostMove, readResponse] at h
    split at h
    · exact .inl ⟨_, rfl, by simpa using h.symm⟩
    · cases h
  | readErrPos =>
    simp only [hostMove, readResponse] at h
    split at h
    · exact .inl ⟨_, rfl, by simpa using h.symm⟩
    · cases h
  | readOut j =>
    simp only [hostMove, readOutByte, readResponse] at h
    split at h
    · split at h
      · exact .inl ⟨_, rfl, by simpa using h.symm⟩
      · cases h
    · split at h <;> cases h

/-- A run starts with a step. -/
theorem run_of_step {k : Nat} {s t : State} (h : step s = .next t) : core.run (k + 1) s = core.run k t := by
  simp only [Host.Core.run]
  rw [show core.step s = .next t from h]

/-- A run ends with a step. -/
theorem run_concat {k : Nat} {s t : State} (h : core.run k s = .next t) : core.run (k + 1) s = step t := by
  induction k generalizing s with
  | zero =>
    simp only [Host.Core.run] at h
    cases h
    cases hq : step t with
    | next u => exact run_of_step hq
    | fault f =>
      simp only [Host.Core.run]
      rw [show core.step t = .fault f from hq]
      rfl
    | refused r =>
      simp only [Host.Core.run]
      rw [show core.step t = .refused r from hq]
      rfl
  | succ k ih =>
    cases hq : step s with
    | next u =>
      rw [run_of_step hq] at h ⊢
      exact ih h
    | fault f =>
      simp only [Host.Core.run] at h
      rw [show core.step s = .fault f from hq] at h
      cases h
    | refused r =>
      simp only [Host.Core.run] at h
      rw [show core.step s = .refused r from hq] at h
      cases h

/-- Which command words decode (30_encoding.md R61, R63). -/
theorem decodeCmd_eq_ok_iff {c : Byte} {i : Instr} : decodeCmd c = .ok i ↔ c = encodeCmd i := by
  cases i <;> revert c <;> decide

/-- Which requests are accepted (10_state.md R31). -/
theorem requestRefusal_eq_none_iff {s : State} :
    requestRefusal s = none ↔ (∃ i, s.cmd = encodeCmd i) ∧ s.lenLegal = true := by
  simp only [← decodeCmd_eq_ok_iff]
  unfold requestRefusal fetch
  cases decodeCmd s.cmd <;> simp

/-- Acceptance depends on MAX_IN_LEN, CMD and IN_LEN only. -/
theorem requestRefusal_congr {s t : State} (hm : t.maxInLen = s.maxInLen) (hc : t.cmd = s.cmd)
    (hl : t.inLen = s.inLen) : requestRefusal t = requestRefusal s := by
  unfold requestRefusal fetch State.lenLegal
  rw [hm, hc, hl]

/-- The two things issuing a request can do (10_state.md R26, R31). -/
theorem issueRequest_cases (s : State) :
    (requestRefusal s = none ∧ issueRequest s = { s with respValid := false, inFlight := true }) ∨
      (∃ r, requestRefusal s = some r ∧ issueRequest s = { s with respValid := false, refusalMark := some r }) := by
  unfold issueRequest
  cases requestRefusal s <;> simp

/-- An invariant of a step holds of every state a run reaches. -/
theorem run_keeps {P : State → Prop} (hstep : ∀ s t, P s → step s = .next t → P t) {k : Nat} {s t : State}
    (hs : P s) (h : core.run k s = .next t) : P t := by
  induction k generalizing s with
  | zero =>
    simp only [Host.Core.run] at h
    cases h
    exact hs
  | succ k ih =>
    simp only [Host.Core.run] at h
    cases hq : step s with
    | next u =>
      rw [show core.step s = .next u from hq] at h
      exact ih (hstep s u hs hq) h
    | fault f =>
      rw [show core.step s = .fault f from hq] at h
      cases h
    | refused r =>
      rw [show core.step s = .refused r from hq] at h
      cases h

/-- The form of the buffers depends on their lengths only. -/
theorem memory_wf_iff {s : State} :
    Memory.wf s = true ↔
      ∀ m, s.maxInLen = some m → s.inBuf.length ≤ m ∧ s.outBuf.length ≤ ceilDiv (8 * m) 5 := by
  unfold Memory.wf
  cases s.maxInLen <;> simp

theorem memory_wf_resetWith (maxInLen : Option Nat) : Memory.wf (State.resetWith maxInLen) = true := by
  rw [memory_wf_iff]
  simp [State.resetWith]

/-- A host write of IN keeps the form (20_memory.md R40). -/
theorem memory_wf_writeInput {s : State} (bytes : List Byte) (h : Memory.wf s = true) :
    Memory.wf (writeInput bytes s) = true := by
  rw [memory_wf_iff] at h ⊢
  intro m hm
  simp only [writeInput_maxInLen] at hm
  simp only [writeInput_inBuf, hm, writeInput_outBuf, List.length_take]
  exact ⟨by omega, (h m hm).2⟩

/-- A write of a byte OUT has room for keeps the form. -/
theorem memory_wf_memWriteOut {s : State} {j : Nat} (v : Byte) (h : Memory.wf s = true)
    (hj : ∀ m, s.maxInLen = some m → j < ceilDiv (8 * m) 5) : Memory.wf (memWriteOut j v s) = true := by
  rw [memory_wf_iff] at h ⊢
  intro m hm
  simp only [memWriteOut_maxInLen] at hm
  have := h m hm
  have := hj m hm
  simp only [memWriteOut_inBuf, memWriteOut_outBuf, List.length_append, List.length_take, List.length_cons,
    List.length_drop]
  omega

/-- A response no longer than MAX_OUT_LEN keeps the form. -/
theorem memory_wf_writeResponse {s : State} {r : Response} (h : Memory.wf s = true)
    (hr : ∀ m, s.maxInLen = some m → r.out.length ≤ ceilDiv (8 * m) 5) : Memory.wf (writeResponse r s) = true := by
  rw [memory_wf_iff] at h ⊢
  exact fun m hm => ⟨(h m hm).1, hr m hm⟩

/-- No response is longer than ceil_div(8L, 5) bytes (00_scope.md R7). -/
theorem length_answer_out (i : Instr) (bytes : List Byte) : (answer i bytes).out.length ≤ ceilDiv (8 * bytes.length) 5 := by
  cases i with
  | encode => simp [answer, okResponse, symbolCount]
  | decode =>
    rcases decodeSymbols_cases bytes with ⟨vals, rfl, -⟩ | ⟨vals, c, rest, rfl, hc, -⟩
    · rw [answer_decode_map_v2s]
      split
      · simp only [okResponse, length_unpackBytes, List.length_map, byteCount, ceilDiv]
        omega
      · simp [errorResponse]
    · rw [answer_decode_invalid hc]
      simp [errorResponse]

theorem memory_wf_answered {i : Instr} {s : State} (h : Memory.wf s = true) (hl : s.lenLegal = true) :
    Memory.wf (answered i s) = true := by
  refine memory_wf_writeResponse (s := s) h fun m hm => ?_
  have h₁ := length_answer_out i s.input
  have h₂ := lenLegal_iff.mp hl m hm
  rw [length_input] at h₁
  refine h₁.trans ?_
  unfold ceilDiv
  omega

end Sys2Proof.Machine
end

