-- ==== Sys2Proof/Laws/Answer.lean ====
section
/-! SUPPORT. The laws of a command's response: its form, DECODE's three outcomes, and the bits of the inputs
in the terms of the statements. -/

namespace Sys2Proof.Machine

theorem getD_bits8_eq_inputBit (bytes : List Byte) (p : Nat) : (bits8 bytes).getD p false = inputBit bytes p :=
  getD_bits8 bytes p

theorem getD_bits5_eq_symbolBit (vals : List SymVal) (p : Nat) : (bits5 vals).getD p false = symbolBit vals p :=
  getD_bits5 vals p

theorem legalLength_iff {s : State} : LegalLength s ↔ s.lenLegal = true := lenLegal_iff.symm

/-- A byte sequence is the symbols of at most one value sequence (40_alphabet_rom.md R84). -/
theorem map_v2s_injective {a b : List SymVal} (h : a.map v2s = b.map v2s) : a = b :=
  List.map_injective_iff.mpr (fun _ _ => v2s_injective) h

/-- The values of an input are as many as its bytes. -/
theorem length_of_input_eq {s : State} {vals : List SymVal} (h : s.input = vals.map v2s) : vals.length = s.inLen := by
  rw [← length_input s, h, List.length_map]

/-- The leftover value is 0 exactly when the bits 8M to 5n − 1 are 0 (42_decode.md R123). -/
theorem leftoverVal_eq_zero_iff_symbolBit (vals : List SymVal) :
    leftoverVal vals = 0 ↔
      ∀ p, 8 * ((5 * vals.length) / 8) ≤ p → p < 5 * vals.length → symbolBit vals p = false := by
  rw [leftoverVal_eq_zero_iff]
  simp only [getD_bits5_eq_symbolBit]
  rfl

/-- DECODE's three outcomes (42_decode.md R120). -/
theorem answer_decode_cases (bytes : List Byte) :
    (∃ vals, bytes = List.map v2s vals ∧ leftoverVal vals = 0 ∧
        answer .decode bytes = okResponse (unpackBytes vals)) ∨
      (∃ vals, bytes = List.map v2s vals ∧ leftoverVal vals ≠ 0 ∧
        answer .decode bytes = errorResponse .invalidPadding) ∨
      (∃ vals c rest, bytes = List.map v2s vals ++ c :: rest ∧ s2v c = none ∧
        answer .decode bytes = errorResponse (.invalidSymbol c vals.length)) := by
  rcases decodeSymbols_cases bytes with ⟨vals, hb, -⟩ | ⟨vals, c, rest, hb, hc, -⟩
  · by_cases hz : leftoverVal vals = 0
    · exact .inl ⟨vals, hb, hz, by rw [hb, answer_decode_map_v2s, if_pos hz]⟩
    · exact .inr (.inl ⟨vals, hb, hz, by rw [hb, answer_decode_map_v2s, if_neg hz]⟩)
  · exact .inr (.inr ⟨vals, c, rest, hb, hc, by rw [hb, answer_decode_invalid hc]⟩)

/-- Every response is one of the columns of 10_state.md R25's table. -/
theorem legal_answer (i : Instr) (bytes : List Byte) : (answer i bytes).legal = true := by
  cases i with
  | encode => simp [answer, okResponse, Response.legal]
  | decode =>
    rcases answer_decode_cases bytes with ⟨vals, -, -, ha⟩ | ⟨vals, -, -, ha⟩ | ⟨vals, c, rest, -, hc, ha⟩ <;> rw [ha]
    · simp [okResponse, Response.legal]
    · simp [errorResponse, Response.legal]
    · simp [errorResponse, Response.legal, hc]

end Sys2Proof.Machine
end

