-- ==== Sys2Proof/Laws/PerInstr.lean ====
section
/-! SUPPORT. A statement for every command, one lemma per constructor: the fields of its command word. -/

/-- The command word of a command has RSVD = 0 and the command's OP code (30_encoding.md R60, R61). -/
def Sys2Proof.Laws.FieldLayout.Statement (i : Sys2Proof.Instr) : Prop :=
  i.wf = true ∧ Sys2Proof.cmdRsvd (Sys2Proof.encodeCmd i) = 0#6 ∧
    Sys2Proof.cmdOp (Sys2Proof.encodeCmd i) = Sys2Proof.opCode i

theorem Sys2Proof.Laws.FieldLayout.encode : Sys2Proof.Laws.FieldLayout.Statement .encode :=
  ⟨rfl, by decide, by decide⟩

theorem Sys2Proof.Laws.FieldLayout.decode : Sys2Proof.Laws.FieldLayout.Statement .decode :=
  ⟨rfl, by decide, by decide⟩
end

