-- ==== Sys2Proof/Laws/Sequence.lean ====
section
/-! SUPPORT. What one round of the reference sequencings does (41_encode.md R103, 42_decode.md R127), said
through the bits ACC holds. -/

namespace Sys2Proof.Machine

/-- The state of a transaction of `s` in its course, after `op` outputs, with the internal registers as
given. -/
def inCourse (s : State) (acc : BitVec 12) (nb ix op : Nat) (out : List Byte) : State :=
  { s with acc := acc, nbits := BitVec.ofNat 4 nb, idx := ix, opos := op, outBuf := out }

theorem startTransaction_eq_inCourse (s : State) : startTransaction s = inCourse s 0 0 0 0 [] := rfl

@[simp] theorem inCourse_acc (s : State) (a nb ix op out) : (inCourse s a nb ix op out).acc = a := rfl
@[simp] theorem inCourse_idx (s : State) (a nb ix op out) : (inCourse s a nb ix op out).idx = ix := rfl
@[simp] theorem inCourse_opos (s : State) (a nb ix op out) : (inCourse s a nb ix op out).opos = op := rfl
@[simp] theorem inCourse_inLen (s : State) (a nb ix op out) : (inCourse s a nb ix op out).inLen = s.inLen := rfl
@[simp] theorem inCourse_outBuf (s : State) (a nb ix op out) : (inCourse s a nb ix op out).outBuf = out := rfl

theorem inCourse_nbits (s : State) {nb : Nat} (a ix op out) (h : nb < 16) :
    (inCourse s a nb ix op out).nbits.toNat = nb := by
  simp [inCourse, Nat.mod_eq_of_lt h]

@[simp] theorem memReadIn_inCourse (s : State) (a nb ix op out i) :
    memReadIn (inCourse s a nb ix op out) i = memReadIn s i := rfl

/-- One emission of ENCODE: NBITS falls by 5, and the 5 bits above it go out as a symbol. -/
theorem emitSymbols_succ {s : State} {a : BitVec 12} {nb ix op : Nat} {out : List Byte} (rounds : Nat) (h : nb < 16)
    (hl : out.length = op) :
    emitSymbols (rounds + 1) (inCourse s a nb ix op out) =
      if 5 ≤ nb then
        emitSymbols rounds (inCourse s a (nb - 5) ix (op + 1) (out ++ [v2s ((a >>> (nb - 5)).setWidth 5)]))
      else inCourse s a nb ix op out := by
  rw [emitSymbols, inCourse_nbits s a ix op out h]
  split
  · rename_i h5
    have hsub : BitVec.ofNat 4 nb - 5 = BitVec.ofNat 4 (nb - 5) := by
      apply BitVec.eq_of_toNat_eq
      simp
      omega
    have hnat : (BitVec.ofNat 4 (nb - 5)).toNat = nb - 5 := by
      simp
      omega
    have htake : out.take op = out := by rw [← hl, List.take_length]
    have hdrop : out.drop (op + 1) = [] := List.drop_eq_nil_of_le (by omega)
    simp only [inCourse, hsub, hnat, memWriteOut, htake, hdrop]
  · rfl

/-- The emissions of one round of ENCODE, for at most 12 bits held: they are read 5 at a time, from the left. -/
theorem emitSymbols_two {s : State} {a : BitVec 12} {nb ix op : Nat} {out : List Byte} (h : nb < 13)
    (hl : out.length = op) (sym : Nat → Byte)
    (hsym : ∀ k, 5 * k + 5 ≤ nb → v2s ((a >>> (nb - 5 * k - 5)).setWidth 5) = sym k) :
    emitSymbols 3 (inCourse s a nb ix op out) =
      inCourse s a (nb % 5) ix (op + nb / 5) (out ++ (List.range (nb / 5)).map sym) := by
  rw [emitSymbols_succ _ (by omega) hl]
  split
  · rename_i h5
    have h0 := hsym 0 (by omega)
    rw [show nb - 5 * 0 - 5 = nb - 5 by omega] at h0
    rw [h0, emitSymbols_succ _ (by omega) (by simp [hl])]
    split
    · have h1 := hsym 1 (by omega)
      rw [show nb - 5 * 1 - 5 = nb - 5 - 5 by omega] at h1
      rw [h1, emitSymbols_succ _ (by omega) (by simp [hl]), if_neg (by omega)]
      rw [show nb / 5 = 2 by omega, show nb % 5 = nb - 5 - 5 by omega]
      simp [List.range_succ]
    · rw [show nb / 5 = 1 by omega, show nb % 5 = nb - 5 by omega]
      simp [List.range_succ]
  · rw [show nb / 5 = 0 by omega, show nb % 5 = nb by omega]
    simp

/-- The bits ACC holds are the last bits of a bit stream `bit` of which `len` bits have been taken in. -/
def holdsBits (a : BitVec 12) (nb len : Nat) (bit : Nat → Bool) : Prop := ∀ j < nb, a.getLsbD j = bit (len - 1 - j)

/-- Taking in w more bits of the stream. -/
theorem holdsBits_take {a : BitVec 12} {nb len w : Nat} {bit : Nat → Bool} {x : BitVec w} (ha : holdsBits a nb len bit)
    (hx : ∀ t < w, x.getLsbD (w - 1 - t) = bit (len + t)) (hn : nb + w ≤ 12) (hl : nb ≤ len) :
    holdsBits ((a <<< w) ||| x.setWidth 12) (nb + w) (len + w) bit := by
  intro j hj
  simp only [BitVec.getLsbD_or, BitVec.getLsbD_shiftLeft, BitVec.getLsbD_setWidth]
  rcases Nat.lt_or_ge j w with h | h
  · have := hx (w - 1 - j) (by omega)
    rw [show w - 1 - (w - 1 - j) = j by omega] at this
    rw [this, decide_eq_true h, decide_eq_true (show j < 12 by omega), show len + (w - 1 - j) = len + w - 1 - j by omega]
    simp
  · have h1 := ha (j - w) (by omega)
    have h2 : x.getLsbD j = false := BitVec.getLsbD_of_ge _ _ h
    simp [show j < 12 by omega, show ¬ j < w by omega, h1, h2, show len - 1 - (j - w) = len + w - 1 - j by omega]

/-- The field of w bits above bit p of ACC, p bits from the right end of those held. -/
theorem holdsBits_field {a : BitVec 12} {nb len p w : Nat} {bit : Nat → Bool} (ha : holdsBits a nb len bit)
    (hp : p + w ≤ nb) (hl : nb ≤ len) {t : Nat} (ht : t < w) :
    ((a >>> p).setWidth w).getLsbD (w - 1 - t) = bit (len - p - w + t) := by
  simp only [BitVec.getLsbD_setWidth, BitVec.getLsbD_ushiftRight]
  rw [ha (p + (w - 1 - t)) (by omega)]
  simp [show w - 1 - t < w by omega, show len - 1 - (p + (w - 1 - t)) = len - p - w + t by omega]

theorem holdsBits_mono {a : BitVec 12} {nb nb' len : Nat} {bit : Nat → Bool} (ha : holdsBits a nb len bit) (h : nb' ≤ nb) :
    holdsBits a nb' len bit := fun j hj => ha j (by omega)

end Sys2Proof.Machine
end

