-- ==== Sys2Proof/Tests/Slice0.lean ====
section
/-! SUPPORT. The model's own tests. Expected values are those of 95_test_vectors.md, or words written out from
30_encoding.md. The theorems `witness_<Name>` show a concrete state and operands that meet the hypotheses of the
statement `Obligations.<Name>`, clause by clause where it has several. -/

namespace Sys2Proof.Tests

open Sys2Proof Sys2Proof.Machine

/-- The block with these input bytes, MAX_IN_LEN unbounded. -/
def ready (bytes : List Byte) : State := { State.reset with inLen := bytes.length, inBuf := bytes }

/-- The block with these input bytes and MAX_IN_LEN. -/
def readyWith (m : Nat) (bytes : List Byte) : State := { ready bytes with maxInLen := some m }

/-- A block whose next step is the block's, with this CMD. -/
def issued (c : Byte) (bytes : List Byte) : State := { ready bytes with cmd := c, inFlight := true }

/-- A block with a response, whose host is about to make this move. -/
def responded (m : HostMove) : State :=
  { State.reset with respValid := true, outLen := 1, outBuf := [0x61], host := [m] }

/-- A block without a response, whose host is about to make this move. -/
def unresponded (m : HostMove) : State := { State.reset with host := [m] }

/-- The response an outcome lets the host read. -/
def respOf : Host.Outcome State Fault Refusal → Option Response
  | .next t => t.visibleResponse
  | .fault _ => none
  | .refused _ => none

/-- The bytes of an OK response of an outcome. -/
def okOf (o : Host.Outcome State Fault Refusal) : Option (List Byte) :=
  match respOf o with
  | some r => if r.status = 0 then some r.out else none
  | none => none

/-! ### Decoding: the words of 30_encoding.md R61 and reserved words of R62, R63 (REF1 to REF4) -/

theorem test_decode_encode_word : decodeCmd 0b00000001#8 = .ok .encode := rfl
theorem test_decode_decode_word : decodeCmd 0b00000010#8 = .ok .decode := rfl
theorem test_table_word_encode : decodeTableWord 8 0b00000001 = some .encode := rfl
theorem test_table_word_decode : decodeTableWord 8 0b00000010 = some .decode := rfl
theorem test_reserved_op_00 : decodeCmd 0b00000000#8 = .error .reservedOp := rfl
theorem test_reserved_op_11 : decodeCmd 0b00000011#8 = .error .reservedOp := rfl
theorem test_reserved_field_05 : decodeCmd 0b00000101#8 = .error .reservedField := rfl
theorem test_reserved_field_82 : decodeCmd 0b10000010#8 = .error .reservedField := rfl
theorem test_table_word_reserved : decodeTableWord 8 0x82 = none := rfl

/-! ### WellFormed: each check refuses an ill-formed request, and a good one passes -/

theorem test_wf_good : Request.wf (some 2) { cmd := 0x02, inLen := 2, bytes := [0x61, 0x61] } = true := by decide
theorem test_wf_rsvd : Request.rsvdWf { cmd := 0x82, inLen := 2, bytes := [0x61, 0x61] } = false := by decide
theorem test_wf_op : Request.opWf { cmd := 0x03, inLen := 1, bytes := [0x00] } = false := by decide
theorem test_wf_len : Request.lenWf (some 1) { cmd := 0x01, inLen := 2, bytes := [0x00, 0x00] } = false := by decide
theorem test_wf_bytes : Request.bytesWf { cmd := 0x01, inLen := 2, bytes := [0x00] } = false := by decide
theorem test_wf_refuses : Request.wf none { cmd := 0x01, inLen := 2, bytes := [0x00] } = false := by decide

/-! ### The commands: two vectors each -/

/-- ENC3. -/
theorem test_encode_ff :
    respOf (exec .encode (ready [0xFF])) =
      some { status := 0, outLen := 2, out := [0x35, 0x32], errByte := 0, errPos := 0 } := by decide

/-- ENC12. -/
theorem test_encode_deadbeef :
    okOf (exec .encode (ready [0xDE, 0xAD, 0xBE, 0xEF])) =
      some [0x31, 0x30, 0x77, 0x31, 0x33, 0x31, 0x79] := by decide

/-- DEC31 and DEC34: the same tail residue, accepted and rejected. -/
theorem test_decode_tail :
    okOf (exec .decode (ready [0x31, 0x30, 0x77, 0x31, 0x33, 0x31, 0x79])) = some [0xDE, 0xAD, 0xBE, 0xEF] ∧
      respOf (exec .decode (ready [0x35, 0x35, 0x35, 0x35, 0x35, 0x35, 0x7A])) =
        some { status := 2, outLen := 0, out := [], errByte := 0, errPos := 0 } := by decide

/-- SYM4: InvalidSymbol wins over the padding failure, and its index counts from 0. -/
theorem test_decode_priority :
    respOf (exec .decode (ready [0x62, 0x36])) =
      some { status := 1, outLen := 0, out := [], errByte := 0x36, errPos := 1 } := by decide

/-- The reference sequencings on ENC3 and DEC7 (their traces in 95_test_vectors.md). -/
theorem test_sequences :
    (encodeSequence (ready [0xFF])).outBuf = [0x35, 0x32] ∧ (encodeSequence (ready [0xFF])).acc = 0x0FF#12 ∧
      (decodeSequence (ready [0x35, 0x32])).outBuf = [0xFF] ∧ (decodeSequence (ready [0x35, 0x32])).acc = 0x3FC#12 := by
  decide

/-! ### The host -/

/-- HOST1. -/
theorem test_read_after_reset : step (unresponded .readStatus) = .fault .responseNotValid := rfl

/-- REF1, P4 and HOST2: issuing the request of the reset registers leaves the mark; a read then faults. -/
theorem test_refused_issue :
    core.run 1 { State.reset with host := [.issue, .readStatus] } =
        .next { State.reset with
          host := [.readStatus], refusalMark := some (.reservedCommand .reservedOp) } ∧
      core.run 2 { State.reset with host := [.issue, .readStatus] } = .fault .responseNotValid := ⟨rfl, rfl⟩

/-- REF5 and REF6 with MAX_IN_LEN = 1. -/
theorem test_capacity :
    exec .encode (readyWith 1 [0x00, 0x00]) = .refused .inputTooLong ∧
      okOf (exec .encode (readyWith 1 [0x00])) = some [0x61, 0x61] := ⟨rfl, by decide⟩

/-- A word given to the next step runs first after reset. -/
theorem test_fetch_word : okOf (step (State.reset.withFetchWord 8 0x01)) = some [] := by decide

/-! ### Witnesses: the command word, steps and the handshake -/

theorem witness_DecodeInvertsEncode : Instr.encode.wf = true ∧ Instr.decode.wf = true := ⟨rfl, rfl⟩

/-- All three reasons, a word that is none of them, and a reserved word with an over-long request. -/
theorem witness_ReservedCommandWordsAreRefused :
    turn (issued 0x00 []) = .block ∧ turn (issued 0x03 []) = .block ∧ turn (issued 0x04 []) = .block ∧
      step (issued 0x00 []) = .refused (.reservedCommand .reservedOp) ∧
      step (issued 0x03 []) = .refused (.reservedCommand .reservedOp) ∧
      step (issued 0x04 []) = .refused (.reservedCommand .reservedField) ∧
      okOf (step (issued 0x01 [])) = some [] ∧
      step { issued 0x00 [0] with maxInLen := some 0 } = .refused (.reservedCommand .reservedOp) :=
  ⟨rfl, rfl, rfl, rfl, rfl, rfl, by decide, rfl⟩

theorem legalLength_of_none {s : State} (h : s.maxInLen = none) : LegalLength s := by
  intro m hm
  rw [h] at hm
  cases hm

/-- One byte over the capacity, and exactly at it. -/
theorem witness_LegalLengthsAreAnsweredOthersRefused :
    (∃ m, (readyWith 1 [0, 0]).maxInLen = some m ∧ m < (readyWith 1 [0, 0]).inLen) ∧
      LegalLength (readyWith 1 [0]) ∧ LegalLength (readyWith 0 []) := by
  refine ⟨⟨1, rfl, by decide⟩, ?_, ?_⟩ <;> (intro m hm; cases hm; decide)

theorem witness_StepRunsTheCommandInCmd :
    (issued 0x02 [0x61]).refusalMark = none ∧ (issued 0x02 [0x61]).inFlight = true ∧
      (∀ m ∈ (issued 0x02 [0x61]).host.head?, m.isRead = false ∧ m ≠ .reset) ∧
      decodeCmd (issued 0x02 [0x61]).cmd = .ok .decode ∧ Instr.decode.wf = true :=
  ⟨rfl, rfl, by decide, rfl, rfl⟩

theorem witness_FetchWordRunsNext : decodeTableWord 8 0x02 = some .decode := rfl

/-- A host about to issue; a legal length; a step at which RESP_VALID becomes 1; a state with RESP_VALID = 0. -/
theorem witness_RespValidFollowsTheHandshake :
    turn (unresponded .issue) = .host .issue [] ∧ LegalLength (ready [0xFF]) ∧
      (∃ t, (issued 0x01 [0xFF]).respValid = false ∧ step (issued 0x01 [0xFF]) = .next t ∧ t.respValid = true) ∧
      State.reset.respValid = false :=
  ⟨rfl, legalLength_of_none rfl, ⟨_, rfl, rfl, rfl⟩, rfl⟩

/-- An accepted request and one refused for its CMD; and with MAX_IN_LEN = 1 one of IN_LEN = 1, which is
accepted, and one of IN_LEN = 2, which is refused. -/
theorem witness_IssueAcceptsOrMarks :
    (unresponded .issue).refusalMark = none ∧ (unresponded .issue).inFlight = false ∧
      (unresponded .issue).host = [.issue] ∧ ¬((unresponded .issue).cmd = 0x01#8 ∨ (unresponded .issue).cmd = 0x02#8) ∧
      ({ unresponded .issue with cmd := 0x02 }).cmd = 0x02#8 ∧ LegalLength { unresponded .issue with cmd := 0x02 } ∧
      LegalLength { unresponded .issue with cmd := 0x02, maxInLen := some 1, inLen := 1 } ∧
      ¬LegalLength { unresponded .issue with cmd := 0x02, maxInLen := some 1, inLen := 2 } := by
  refine ⟨rfl, rfl, rfl, by decide, rfl, legalLength_of_none rfl, ?_, fun h => absurd (h 1 rfl) (by decide)⟩
  intro m hm
  cases hm
  decide

/-- A marked state whose host reads on, and one whose host does nothing. -/
theorem witness_RefusalMarkIsPermanent :
    (∃ t, step { unresponded .readRespValid with refusalMark := some .inputTooLong } = .next t) ∧
      ∀ m ∈ ({ State.reset with refusalMark := some .inputTooLong }).host.head?, m.isRead = false :=
  ⟨⟨_, rfl⟩, by decide⟩

/-- Each of the five reads. -/
theorem witness_ResponseReadsFaultWithoutResponse :
    turn (unresponded .readStatus) = .host .readStatus [] ∧ turn (unresponded .readOutLen) = .host .readOutLen [] ∧
      turn (unresponded (.readOut 0)) = .host (.readOut 0) [] ∧
      turn (unresponded .readErrByte) = .host .readErrByte [] ∧
      turn (unresponded .readErrPos) = .host .readErrPos [] ∧ (unresponded .readStatus).respValid = false :=
  ⟨rfl, rfl, rfl, rfl, rfl, rfl⟩

/-- Each read, the last byte of OUT, and the index just past it. -/
theorem witness_ReadsDeliverTheRegisters :
    turn (unresponded .readRespValid) = .host .readRespValid [] ∧ turn (responded .readStatus) = .host .readStatus [] ∧
      turn (responded .readOutLen) = .host .readOutLen [] ∧ turn (responded .readErrByte) = .host .readErrByte [] ∧
      turn (responded .readErrPos) = .host .readErrPos [] ∧ turn (responded (.readOut 0)) = .host (.readOut 0) [] ∧
      (responded (.readOut 0)).outBuf[0]? = some 0x61 ∧ turn (responded (.readOut 1)) = .host (.readOut 1) [] ∧
      (responded (.readOut 1)).outBuf.length ≤ 1 ∧ (responded .readStatus).respValid = true :=
  ⟨rfl, rfl, rfl, rfl, rfl, rfl, rfl, rfl, by decide, rfl⟩

/-- Each write; a byte at the last index with room, MAX_IN_LEN = 1. -/
theorem witness_HostWritesReachTheRequestRegisters :
    turn (unresponded (.writeCmd 1)) = .host (.writeCmd 1) [] ∧
      turn (unresponded (.writeInLen 3)) = .host (.writeInLen 3) [] ∧
      turn { unresponded (.writeIn [0x61, 0x62]) with maxInLen := some 1 } = .host (.writeIn [0x61, 0x62]) [] ∧
      ([0x61, 0x62] : List Byte)[0]? = some 0x61 ∧ ∀ m, some 1 = some m → 0 < m :=
  ⟨rfl, rfl, rfl, rfl, by intro m hm; cases hm; decide⟩

theorem witness_HostRequestIsAnswered :
    let s : State := { readyWith 1 [] with
      host := [.writeCmd (encodeCmd .encode), .writeInLen 1, .writeIn [0xFF], .issue, .await] }
    s.refusalMark = none ∧ s.inFlight = false ∧ (∀ m, s.maxInLen = some m → ([0xFF] : List Byte).length ≤ m) ∧
      okOf (core.run 5 s) = some [0x35, 0x32] :=
  ⟨rfl, rfl, by intro m hm; cases hm; decide, by decide⟩

/-- A block with a request in flight that meets the invariant. -/
theorem issued_inv (host : List HostMove) : BlockInv { issued 0x01 [0xFF] with host := host } :=
  ⟨rfl, Nat.zero_le _, fun h => Bool.noConfusion h, fun _ => rfl,
    fun _ => (requestRefusal_congr (s := issued 0x01 [0xFF]) (t := { issued 0x01 [0xFF] with host := host }) rfl rfl rfl).trans (by decide), by
    intro r h
    have h : (none : Option Refusal) = some r := h
    cases h⟩

theorem witness_PollingHostGetsTheResponse :
    BlockInv { issued 0x01 [0xFF] with host := [.readRespValid, .readRespValid, .await] } ∧
      (issued 0x01 [0xFF]).inFlight = true ∧
      [.readRespValid, .readRespValid, .await] = List.replicate 2 HostMove.readRespValid ++ .await :: [] :=
  ⟨issued_inv _, rfl, rfl⟩

/-- The host's write waits: the block moves. -/
theorem witness_RequestIsHeldInFlight :
    (issued 0x01 [0xFF]).inFlight = true ∧
      ({ issued 0x01 [0xFF] with host := [.writeCmd 2] }).host.head? ≠ some .reset ∧
      ∃ t, step { issued 0x01 [0xFF] with host := [.writeCmd 2] } = .next t :=
  ⟨rfl, by decide, _, rfl⟩

/-- A step that shows no response, and one that shows the whole. -/
theorem witness_OnlyWholeResponsesAppear :
    (BlockInv { issued 0x01 [0xFF] with host := [.readRespValid] } ∧
      ∃ t, step { issued 0x01 [0xFF] with host := [.readRespValid] } = .next t) ∧
      BlockInv { issued 0x01 [0xFF] with host := [] } ∧ ∃ t, step { issued 0x01 [0xFF] with host := [] } = .next t :=
  ⟨⟨issued_inv _, _, rfl⟩, issued_inv _, _, rfl⟩

theorem witness_IdleBlockWaitsForTheHost :
    State.reset.refusalMark = none ∧ State.reset.inFlight = false ∧ State.reset.host = [] ∧
      (unresponded .await).host = .await :: [] ∧ (unresponded .await).respValid = false ∧
      (responded .await).host = .await :: [] ∧ (responded .await).respValid = true :=
  ⟨rfl, rfl, rfl, rfl, rfl, rfl, rfl⟩

theorem witness_ResetAbandonsTheRequest :
    (issued 0x01 [0xFF]).refusalMark = none ∧ ({ issued 0x01 [0xFF] with host := [.reset] }).host = .reset :: [] ∧
      ({ issued 0x01 [0xFF] with host := [.reset] }).inFlight = true := ⟨rfl, rfl, rfl⟩

/-! ### Witnesses: whole-machine rules -/

theorem witness_EveryStepKeepsTheInvariant :
    BlockInv { issued 0x01 [0xFF] with host := [] } ∧ ∃ t, step { issued 0x01 [0xFF] with host := [] } = .next t :=
  ⟨issued_inv _, _, rfl⟩

/-- A refusal under the invariant: the mark stands. -/
theorem witness_AcceptedRequestsAreNeverRefused :
    BlockInv { State.reset with refusalMark := some .inputTooLong } ∧
      step { State.reset with refusalMark := some .inputTooLong } = .refused .inputTooLong :=
  ⟨⟨rfl, Nat.zero_le _, fun h => Bool.noConfusion h, fun h => Bool.noConfusion h, fun h => Bool.noConfusion h,
    fun _ _ => ⟨rfl, rfl⟩⟩, rfl⟩

/-- Both faults. -/
theorem witness_OnlyHostReadsFault :
    step (unresponded .readErrPos) = .fault .responseNotValid ∧
      step (responded (.readOut 1)) = .fault .outIndexOutOfRange := ⟨rfl, rfl⟩

theorem witness_NoStepChangesTheParameter : ∃ t, step (issued 0x01 [0xFF]) = .next t := ⟨_, rfl⟩

/-- The longest input of a bounded block. -/
theorem witness_OutputFitsTheOutputBuffer :
    (readyWith 1 [0xFF]).maxInLen = some 1 ∧ (readyWith 1 [0xFF]).inLen ≤ 1 ∧ (readyWith 1 [0xFF]).inLen = 1 :=
  ⟨rfl, by decide, rfl⟩

/-- A command's next state, and a step of a state that holds STATUS = 3 already. -/
theorem witness_StatusThreeIsNeverWritten :
    (∃ t, exec .decode (ready [0x62]) = .next t) ∧
      ∃ t, step { responded .await with status := 3 } = .next t ∧ t.status = 3 := ⟨⟨_, rfl⟩, _, rfl, rfl⟩

/-- Two states that differ in all but the request; a legal length and an illegal one. -/
theorem witness_ResponseDependsOnTheRequestAlone :
    (ready [0xFF]).maxInLen = (issued 0x01 [0xFF]).maxInLen ∧ (ready [0xFF]).inLen = (issued 0x01 [0xFF]).inLen ∧
      (ready [0xFF]).input = (issued 0x01 [0xFF]).input ∧ LegalLength (ready [0xFF]) ∧ ¬LegalLength (readyWith 0 [0xFF]) :=
  ⟨rfl, rfl, rfl, legalLength_of_none rfl, fun h => absurd (h 0 rfl) (by decide)⟩

theorem witness_ReissuedRequestGetsTheSameResponse :
    let s : State := { issued 0x02 [0x62] with host := [.issue, .await] }
    decodeCmd s.cmd = .ok .decode ∧
      ∃ t, exec .decode s = .next t ∧ t.refusalMark = none ∧ t.host = .issue :: .await :: [] :=
  ⟨rfl, _, rfl, rfl, rfl⟩

theorem witness_HostCannotObserveInternalRegisters :
    sameToHost (ready [0xFF]) { ready [0xFF] with acc := 5, nbits := 3, idx := 7, opos := 9, freeCount := 2 } := rfl

theorem witness_CommandsChangeOnlyTheResponse :
    (∃ t, exec .encode (ready [0xFF]) = .next t) ∧ ∃ t, exec .decode (ready [0x62]) = .next t := ⟨⟨_, rfl⟩, _, rfl⟩

/-- An instance that steps, one that faults, one that is refused. -/
theorem witness_InstancesAreIndependent :
    let bank := [issued 0x01 [0xFF], unresponded .readStatus, issued 0x00 []]
    (bank[0]? = some (issued 0x01 [0xFF]) ∧ ∃ t, step (issued 0x01 [0xFF]) = .next t) ∧
      (bank[1]? = some (unresponded .readStatus) ∧ step (unresponded .readStatus) = .fault .responseNotValid) ∧
      (bank[2]? = some (issued 0x00 []) ∧ step (issued 0x00 []) = .refused (.reservedCommand .reservedOp)) :=
  ⟨⟨rfl, _, rfl⟩, ⟨rfl, rfl⟩, rfl, rfl⟩

/-! ### Witnesses: the ROM (its clauses at their boundaries: ROM1 to ROM5, ROM11 to ROM15) -/

theorem witness_ForwardLookupFollowsTheAlphabet :
    v2s 0 = 0x61 ∧ v2s 25 = 0x7A ∧ v2s 26 = 0x30 ∧ v2s 31 = 0x35 ∧ (25#5).toNat ≤ 25 ∧ 25 < (26#5).toNat := by decide

theorem witness_ReverseLookupFollowsTheAlphabet :
    s2v 0x61 = some 0 ∧ s2v 0x7A = some 25 ∧ s2v 0x30 = some 26 ∧ s2v 0x35 = some 31 ∧ s2v 0x60 = none ∧
      s2v 0x7B = none ∧ s2v 0x2F = none ∧ s2v 0x36 = none := by decide

theorem witness_ThirtyTwoBytesAreSymbols : s2v 0x41 = none ∧ s2v 0x5A = none := by decide

theorem witness_LookupsAreInverse : s2v 0x31 = some 27 ∧ v2s 27 = 0x31 := by decide

/-! ### Witnesses: ENCODE -/

/-- An empty input, and one whose last group is padded (bits 8 and 9 past the input's end). -/
theorem witness_EncodeAnswersTheSymbolsOfTheGroups :
    LegalLength (ready []) ∧ LegalLength (readyWith 1 [0xFF]) ∧ inputBit [0xFF] 7 = true ∧ ¬5 * 1 + 3 < 8 * 1 := by
  refine ⟨legalLength_of_none rfl, ?_, by decide, by decide⟩
  intro m hm
  cases hm
  decide

theorem witness_EncodeLengthLaw : LegalLength (ready [0xFF]) ∧ okOf (exec .encode (ready [0xFF])) = some [0x35, 0x32] :=
  ⟨legalLength_of_none rfl, by decide⟩

/-- A padded final group, and an input with none. -/
theorem witness_EncodePadsTheFinalGroupOnTheRight :
    LegalLength (ready [0xFF]) ∧ (8 * (ready [0xFF]).inLen) % 5 ≠ 0 ∧
      LegalLength (ready []) ∧ (8 * (ready []).inLen) % 5 = 0 :=
  ⟨legalLength_of_none rfl, by decide, legalLength_of_none rfl, by decide⟩

/-- ENCODE's output for FF, given to DECODE. -/
theorem witness_EncodeOutputIsSymbols :
    LegalLength (ready [0xFF]) ∧ LegalLength (ready [0x35, 0x32]) ∧
      ∃ t, exec .encode (ready [0xFF]) = .next t ∧ (ready [0x35, 0x32]).input = t.outBuf :=
  ⟨legalLength_of_none rfl, legalLength_of_none rfl, _, rfl, by decide⟩

theorem witness_EncodeSequenceGivesTheSameResponse :
    LegalLength (ready [0xFF]) ∧ (encodeSequence (ready [0xFF])).respValid = true := ⟨legalLength_of_none rfl, rfl⟩

/-- The whole input, with 3 bits carried. -/
theorem witness_EncodeLoopHoldsItsInvariants : 1 ≤ (ready [0xFF]).inLen ∧ 2 < (8 * 1) % 5 := by decide

/-! ### Witnesses: DECODE -/

theorem witness_DecodeReportsTheFirstInvalidSymbol :
    LegalLength (ready [0x62, 0x36]) ∧ (ready [0x62, 0x36]).input[1]? = some 0x36 ∧ s2v 0x36 = none ∧
      ∀ q < 1, ∀ d, (ready [0x62, 0x36]).input[q]? = some d → s2v d ≠ none := by
  refine ⟨legalLength_of_none rfl, rfl, by decide, ?_⟩
  intro q hq d hd
  obtain rfl : q = 0 := by omega
  obtain rfl : 0x62#8 = d := Option.some.inj hd
  decide

/-- "ab": the last bit is 1 (SRC8). -/
theorem witness_DecodeRejectsNonzeroLeftoverBits :
    LegalLength (ready [0x61, 0x62]) ∧ (ready [0x61, 0x62]).input = [0, 1].map v2s ∧
      8 * ((5 * (ready [0x61, 0x62]).inLen) / 8) ≤ 9 ∧ 9 < 5 * (ready [0x61, 0x62]).inLen ∧
      symbolBit [0, 1] 9 = true := ⟨legalLength_of_none rfl, rfl, by decide, by decide, by decide⟩

/-- "52" (DEC7). -/
theorem witness_DecodeAnswersTheBytesOfTheValues :
    LegalLength (ready [0x35, 0x32]) ∧ (ready [0x35, 0x32]).input = [31, 28].map v2s ∧
      ∀ p, 8 * ((5 * (ready [0x35, 0x32]).inLen) / 8) ≤ p → p < 5 * (ready [0x35, 0x32]).inLen →
        symbolBit [31, 28] p = false := by
  refine ⟨legalLength_of_none rfl, rfl, ?_⟩
  show ∀ p, 8 ≤ p → p < 10 → symbolBit [31, 28] p = false
  intro p h₁ h₂
  have : p = 8 ∨ p = 9 := by omega
  rcases this with rfl | rfl <;> decide

/-- The three outcomes occur: "a", "A", "b" (DEC2, SYM1, DEC3). -/
theorem witness_DecodeAcceptsExactlyZeroTails :
    LegalLength (ready [0x61]) ∧ (respOf (exec .decode (ready [0x61]))).map (·.status) = some 0 ∧
      (respOf (exec .decode (ready [0x41]))).map (·.status) = some 1 ∧
      (respOf (exec .decode (ready [0x62]))).map (·.status) = some 2 :=
  ⟨legalLength_of_none rfl, by decide, by decide, by decide⟩

theorem witness_DecodeLengthLaw : ∃ t, exec .decode (ready [0x35, 0x32]) = .next t ∧ t.status = 0 := ⟨_, rfl, by decide⟩

/-- "aea" (DEC12: residue 3, zero tail) and "aba" (DEC14: a bit in the second-last symbol). -/
theorem witness_DecodeTailFollowsTheTable :
    LegalLength (ready [0x61, 0x65, 0x61]) ∧ (ready [0x61, 0x65, 0x61]).input = [0, 4, 0].map v2s ∧
      tailIsZero [0, 4, 0] ∧ (ready [0x61, 0x62, 0x61]).input = [0, 1, 0].map v2s ∧ ¬tailIsZero [0, 1, 0] :=
  ⟨legalLength_of_none rfl, rfl, ⟨rfl, rfl⟩, rfl, fun h => absurd h.1 (by decide)⟩

/-- Every residue of n mod 8: an input of zeros is accepted (DEC1, DEC2, DEC5, DEC11, DEC15, DEC20,
DEC25, DEC28), and with the last symbol 1 rejected where there are leftover bits (DEC3, DEC8, DEC13, DEC18, DEC23,
DEC26, DEC32). -/
theorem witness_DecodeTailFollowsTheTable_residues :
    (∀ n < 8, okOf (exec .decode (ready (List.replicate n 0x61))) = some (List.replicate (5 * n / 8) 0)) ∧
      ∀ n < 7, (respOf (exec .decode (ready (List.replicate n 0x61 ++ [0x62])))).map (·.status) = some 2 := by decide

/-- "aea": a phantom byte that is 0. -/
theorem witness_PhantomByteIsDropped :
    LegalLength (ready [0x61, 0x65, 0x61]) ∧ (ready [0x61, 0x65, 0x61]).input = [0, 4, 0].map v2s ∧
      okOf (exec .decode (ready [0x61, 0x65, 0x61])) = some [0x01] := ⟨legalLength_of_none rfl, rfl, by decide⟩

/-- Both errors. -/
theorem witness_OnlyDecodeRaisesErrors :
    (∃ t, exec .decode (ready [0x41]) = .next t ∧ t.status ≠ 0) ∧
      ∃ t, exec .decode (ready [0x62]) = .next t ∧ t.status ≠ 0 := ⟨⟨_, rfl, by decide⟩, _, rfl, by decide⟩

/-- "a=" (SYM7), and the first and last uppercase letter. -/
theorem witness_DecodeRejectsUppercaseAndPaddingMarks :
    LegalLength (ready [0x61, 0x3D]) ∧ 0x3D#8 ∈ (ready [0x61, 0x3D]).input ∧ 0x41#8 ≤ 0x41#8 ∧ 0x5A#8 ≤ 0x5A#8 ∧
      0x5A#8 ∈ (ready [0x41, 0x5A]).input := ⟨legalLength_of_none rfl, by decide, by decide, by decide, by decide⟩

theorem witness_DecodeSequenceGivesTheSameResponse :
    LegalLength (ready [0x35, 0x32]) ∧ (decodeSequence (ready [0x35, 0x32])).respValid = true :=
  ⟨legalLength_of_none rfl, rfl⟩

theorem witness_DecodeLoopHoldsItsInvariants :
    (ready [0x35, 0x32]).input = [31, 28].map v2s ∧ 2 ≤ (ready [0x35, 0x32]).inLen ∧ 1 < (5 * 2) % 8 :=
  ⟨rfl, by decide, by decide⟩

/-! ### Witnesses: the laws -/

theorem witness_DecodeOfEncodeIsTheInput :
    LegalLength (ready [0xFF]) ∧ LegalLength (ready [0x35, 0x32]) ∧
      ∃ t, exec .encode (ready [0xFF]) = .next t ∧ (ready [0x35, 0x32]).input = t.outBuf :=
  ⟨legalLength_of_none rfl, legalLength_of_none rfl, _, rfl, by decide⟩

/-- "52" (LAW2). -/
theorem witness_EncodeOfDecodeAtCanonicalLengths :
    ∃ t, exec .decode (ready [0x35, 0x32]) = .next t ∧ t.status = 0 ∧
      (ready [0x35, 0x32]).inLen % 8 ∈ [0, 2, 4, 5, 7] ∧ LegalLength (ready [0xFF]) ∧ (ready [0xFF]).input = t.outBuf :=
  ⟨_, rfl, by decide, by decide, legalLength_of_none rfl, by decide⟩

/-- "aea" (LAW3). -/
theorem witness_EncodeOfDecodeAtOtherLengths :
    ∃ t, exec .decode (ready [0x61, 0x65, 0x61]) = .next t ∧ t.status = 0 ∧
      (ready [0x61, 0x65, 0x61]).inLen % 8 ∈ [1, 3, 6] ∧ LegalLength (ready [0x01]) ∧ (ready [0x01]).input = t.outBuf :=
  ⟨_, rfl, by decide, by decide, legalLength_of_none rfl, by decide⟩

end Sys2Proof.Tests
end

section
/-! PROOFS. The family 00_scope.md: the parameter MAX_IN_LEN, the capacity of OUT, and the bytes the block does
not take for symbols. The first part says what a transaction leaves in the registers these statements speak of. -/

namespace Sys2Proof.Machine

/-! ### The registers after a transaction -/

@[simp] theorem answered_maxInLen (i : Instr) (s : State) : (answered i s).maxInLen = s.maxInLen := rfl
@[simp] theorem answered_status (i : Instr) (s : State) : (answered i s).status = (answer i s.input).status := rfl
@[simp] theorem answered_outLen (i : Instr) (s : State) : (answered i s).outLen = (answer i s.input).outLen := rfl
@[simp] theorem answered_outBuf (i : Instr) (s : State) : (answered i s).outBuf = (answer i s.input).out := rfl

/-- OUT_LEN of a response is the length of its OUT (10_state.md R25). -/
theorem answer_outLen (i : Instr) (bytes : List Byte) : (answer i bytes).outLen = (answer i bytes).out.length := by
  have h := legal_answer i bytes
  simp only [Response.legal, Bool.and_eq_true, decide_eq_true_eq] at h
  exact h.1

/-- ENCODE's OUT_LEN is the number of its symbols (41_encode.md R101). -/
theorem answer_encode_outLen (bytes : List Byte) : (answer .encode bytes).outLen = ceilDiv (8 * bytes.length) 5 :=
  length_packSymbols bytes

/-! ### MAX_IN_LEN -/

/-- No host move writes the parameter. -/
theorem hostMove_maxInLen {m : HostMove} {s t : State} (h : hostMove m s = .next t) : t.maxInLen = s.maxInLen := by
  rcases hostMove_cases h with ⟨d, -, rfl⟩ | ⟨c, -, rfl⟩ | ⟨n, -, rfl⟩ | ⟨bytes, -, rfl⟩ | ⟨-, rfl⟩ | ⟨-, rfl⟩ |
    ⟨-, rfl⟩ <;> simp

/-- Settles O24: an idle step changes nothing, no host move writes the parameter, and neither does a transaction. -/
theorem noStepChangesTheParameter : Obligations.NoStepChangesTheParameter := by
  intro s t h
  rcases step_cases h with ⟨-, rfl⟩ | ⟨m, rest, -, hm⟩ | ⟨i, -, -, -, rfl⟩
  · rfl
  · exact (hostMove_maxInLen hm :)
  · rfl

/-! ### MAX_OUT_LEN -/

theorem ceilDiv_mono {a b : Nat} (d : Nat) (h : a ≤ b) : ceilDiv a d ≤ ceilDiv b d :=
  Nat.div_le_div_right (by omega)

/-- Settles O25: OUT holds at most ceil_div(8 * IN_LEN, 5) bytes, that grows with IN_LEN, and ENCODE reaches it. -/
theorem outputFitsTheOutputBuffer : Obligations.OutputFitsTheOutputBuffer := by
  intro i s m hm hlen
  have hlegal : s.lenLegal = true := lenLegal_iff.mpr (by simpa [hm] using hlen)
  refine ⟨answered i s, ceilDiv (8 * m) 5, exec_of_lenLegal i hlegal, ?_, rfl, answer_outLen i s.input, ?_, ?_⟩
  · simp [State.maxOutLen, hm]
  · calc (answered i s).outLen = (answer i s.input).out.length := answer_outLen i s.input
      _ ≤ ceilDiv (8 * s.input.length) 5 := length_answer_out i s.input
      _ ≤ ceilDiv (8 * m) 5 := ceilDiv_mono 5 (by simpa using hlen)
  · rintro rfl rfl
    simp [answer_encode_outLen]

/-! ### Bytes that are no symbols -/

/-- The bytes without a value (40_alphabet_rom.md R82). -/
theorem s2v_eq_none_iff {c : Byte} :
    s2v c = none ↔ ¬(0x61#8 ≤ c ∧ c ≤ 0x7A#8) ∧ ¬(0x30#8 ≤ c ∧ c ≤ 0x35#8) := by
  unfold s2v
  split_ifs <;> simp [*]

/-- '=' and the uppercase letters lie outside both ranges of the alphabet (40_alphabet_rom.md R83). -/
theorem s2v_eq_none_of_padding_or_uppercase {c : Byte} (h : c = 0x3D#8 ∨ (0x41#8 ≤ c ∧ c ≤ 0x5A#8)) :
    s2v c = none := by
  rw [s2v_eq_none_iff]
  constructor <;> bv_omega

/-- An input that holds a byte that is no symbol is answered INVALID_SYMBOL, for it or for one before it
(42_decode.md R121). -/
theorem answer_decode_of_mem_invalid {bytes : List Byte} {c : Byte} (hmem : c ∈ bytes) (hc : s2v c = none) :
    ∃ d pos, answer .decode bytes = errorResponse (.invalidSymbol d pos) := by
  have not_symbols : ∀ vals : List SymVal, bytes ≠ vals.map v2s := by
    rintro vals rfl
    obtain ⟨v, -, rfl⟩ := List.mem_map.mp hmem
    simp at hc
  rcases answer_decode_cases bytes with ⟨vals, hb, -, -⟩ | ⟨vals, hb, -, -⟩ | ⟨vals, d, rest, -, -, ha⟩
  · exact absurd hb (not_symbols vals)
  · exact absurd hb (not_symbols vals)
  · exact ⟨d, vals.length, ha⟩

/-- Settles O50: '=' and uppercase letters are no symbols, so DECODE reports the first byte that is none. -/
theorem decodeRejectsUppercaseAndPaddingMarks : Obligations.DecodeRejectsUppercaseAndPaddingMarks := by
  intro s c hlegal hmem hc
  obtain ⟨d, pos, ha⟩ := answer_decode_of_mem_invalid hmem (s2v_eq_none_of_padding_or_uppercase hc)
  refine ⟨answered .decode s, exec_of_lenLegal .decode (legalLength_iff.mp hlegal), ?_, ?_⟩
  · rw [answered_status, ha]; rfl
  · rw [answered_outLen, ha]; rfl

end Sys2Proof.Machine
end

section
/-! PROOFS. The family 10_state.md: the handshake and the refusal mark, what the host can read and write, the
invariant, and that neither the response nor the host's view depends on what the request does not hold. The first
part adds, to the laws of turns and host moves, those that all of these use. -/

namespace Sys2Proof.Machine

/-! ### Turns and fetches -/

/-- A move that may not come between a request and its response is made only with nothing in flight and no mark. -/
theorem idle_of_turn_eq_host {s : State} {m : HostMove} {rest : List HostMove} (ht : turn s = .host m rest)
    (hm : m.mayInterrupt = false) : s.refusalMark = none ∧ s.inFlight = false := by
  have hread : m.isRead = false := by
    rw [HostMove.mayInterrupt, Bool.or_eq_false_iff] at hm
    exact hm.1
  obtain ⟨-, ⟨-, h⟩ | ⟨-, -, h⟩ | ⟨hmark, hidle, -⟩⟩ := turn_eq_host_iff.mp ht
  · simp [hread] at h
  · simp [hm] at h
  · exact ⟨hmark, hidle⟩

theorem fetch_eq_ok_iff {s : State} {i : Instr} : fetch s = .ok i ↔ decodeCmd s.cmd = .ok i := by
  unfold fetch
  cases decodeCmd s.cmd <;> simp

/-! ### Host moves -/

/-- A move that only reads answers a state in which only what the host has seen is new. -/
theorem observe_of_hostMove_eq_next {m : HostMove} {s t : State} (hread : m.isRead = true)
    (h : hostMove m s = .next t) : ∃ d, t = observe d s := by
  rcases hostMove_cases h with ⟨d, -, rfl⟩ | ⟨c, rfl, -⟩ | ⟨n, rfl, -⟩ | ⟨bytes, rfl, -⟩ | ⟨rfl, -⟩ | ⟨rfl, -⟩ |
    ⟨rfl, -⟩
  · exact ⟨d, rfl⟩
  all_goals cases hread

/-- No host move sets RESP_VALID (10_state.md R26). -/
theorem respValid_of_hostMove_eq_next {m : HostMove} {s t : State} (hs : s.respValid = false)
    (h : hostMove m s = .next t) : t.respValid = false := by
  rcases hostMove_cases h with ⟨d, -, rfl⟩ | ⟨c, -, rfl⟩ | ⟨n, -, rfl⟩ | ⟨bytes, -, rfl⟩ | ⟨-, rfl⟩ | ⟨-, rfl⟩ |
    ⟨-, rfl⟩ <;> simp [hs]

theorem readResponse_of_valid {s : State} (d : HostDatum) (h : s.respValid = true) :
    readResponse d s = .next (observe d s) := by simp [readResponse, h]

theorem readResponse_of_invalid {s : State} (d : HostDatum) (h : s.respValid = false) :
    readResponse d s = .fault .responseNotValid := by simp [readResponse, h]

theorem readOutByte_of_getElem? {s : State} {j : Nat} {b : Byte} (h : s.outBuf[j]? = some b) :
    readOutByte j s = readResponse (.out j b) s := by simp [readOutByte, h]

theorem readOutByte_of_length_le {s : State} {j : Nat} (h : s.outBuf.length ≤ j) :
    readOutByte j s = if s.respValid then .fault .outIndexOutOfRange else .fault .responseNotValid := by
  simp [readOutByte, List.getElem?_eq_none h]

theorem readOutByte_of_invalid {s : State} (j : Nat) (h : s.respValid = false) :
    readOutByte j s = .fault .responseNotValid := by
  rcases Nat.lt_or_ge j s.outBuf.length with hj | hj
  · rw [readOutByte_of_getElem? (List.getElem?_eq_getElem hj), readResponse_of_invalid _ h]
  · simp [readOutByte_of_length_le hj, h]

theorem readResponse_ne_refused {d : HostDatum} {s : State} {r : Refusal} : readResponse d s ≠ .refused r := by
  unfold readResponse
  split <;> simp

theorem readOutByte_ne_refused {j : Nat} {s : State} {r : Refusal} : readOutByte j s ≠ .refused r := by
  unfold readOutByte
  split
  · exact readResponse_ne_refused
  · split <;> simp

/-- A host move is never refused: a refusal is the block's. -/
theorem hostMove_ne_refused {m : HostMove} {s : State} {r : Refusal} : hostMove m s ≠ .refused r := by
  cases m with
  | readOut j => exact readOutByte_ne_refused
  | readStatus => exact readResponse_ne_refused
  | readOutLen => exact readResponse_ne_refused
  | readErrByte => exact readResponse_ne_refused
  | readErrPos => exact readResponse_ne_refused
  | _ => simp [hostMove]

/-! ### The invariant -/

theorem nbits_releaseInternal_le (s : State) : (releaseInternal s).nbits.toNat ≤ 12 := by
  have h := (Config.freeNbits s.freeCount).isLt
  simp only [releaseInternal_nbits, BitVec.toNat_ofNat]
  omega

/-- With nothing in flight and no mark, the invariant speaks of the buffers, NBITS and the response only. -/
theorem blockInv_of_idle {s : State} (memory : Memory.wf s = true) (nbits : s.nbits.toNat ≤ 12)
    (legal : s.respValid = true → s.response.legal = true) (hidle : s.inFlight = false)
    (hmark : s.refusalMark = none) : BlockInv s where
  memory := memory
  nbits := nbits
  legal := legal
  pending h := by simp [hidle] at h
  accepted h := by simp [hidle] at h
  marked r h := by simp [hmark] at h

/-- The invariant does not speak of the host. -/
theorem blockInv_setHost {s : State} (h : BlockInv s) (host : List HostMove) (seen : List HostDatum) :
    BlockInv { s with host := host, seen := seen } :=
  ⟨h.memory, h.nbits, h.legal, h.pending, h.accepted, h.marked⟩

/-- Issuing a request with nothing in flight keeps the invariant: it is accepted, or leaves the mark. -/
theorem blockInv_issueRequest {s : State} (h : BlockInv s) (hidle : s.inFlight = false)
    (hmark : s.refusalMark = none) : BlockInv (issueRequest s) := by
  rcases issueRequest_cases s with ⟨hacc, heq⟩ | ⟨r, -, heq⟩ <;> rw [heq]
  · exact ⟨h.memory, h.nbits, nofun, fun _ => rfl, fun _ => (requestRefusal_congr rfl rfl rfl).trans hacc,
      fun r hr => by simp [hmark] at hr⟩
  · exact ⟨h.memory, h.nbits, nofun, fun _ => rfl, fun hf => by simp [hidle] at hf, fun _ _ => ⟨rfl, hidle⟩⟩

/-- A reset move leaves nothing of which the invariant could fail (70_reset_and_hazards.md R170). -/
theorem blockInv_resetBlock (s : State) : BlockInv (resetBlock s) where
  memory := by simp [memory_wf_iff]
  nbits := nbits_releaseInternal_le _
  legal := nofun
  pending _ := rfl
  accepted := nofun
  marked _ _ := ⟨rfl, rfl⟩

/-- A transaction ends idle, with a legal response that fits OUT. -/
theorem blockInv_answered {s : State} (h : BlockInv s) (i : Instr) (hlen : s.lenLegal = true)
    (hmark : s.refusalMark = none) : BlockInv (answered i s) :=
  blockInv_of_idle (memory_wf_answered h.memory hlen) (nbits_releaseInternal_le _)
    (fun _ => legal_answer i s.input) rfl hmark

/-- A host move keeps the invariant where the host may make it: it reads or resets, or nothing is in flight and
no mark stands. -/
theorem blockInv_hostMove {m : HostMove} {s t : State} (h : BlockInv s)
    (hturn : m.mayInterrupt = false → s.refusalMark = none ∧ s.inFlight = false)
    (hm : hostMove m s = .next t) : BlockInv t := by
  rcases hostMove_cases hm with ⟨d, -, rfl⟩ | ⟨c, rfl, rfl⟩ | ⟨n, rfl, rfl⟩ | ⟨bytes, rfl, rfl⟩ | ⟨rfl, rfl⟩ |
    ⟨-, rfl⟩ | ⟨-, rfl⟩
  · exact blockInv_setHost h s.host _
  · obtain ⟨hmark, hidle⟩ := hturn rfl
    exact blockInv_of_idle h.memory h.nbits h.legal hidle hmark
  · obtain ⟨hmark, hidle⟩ := hturn rfl
    exact blockInv_of_idle h.memory h.nbits h.legal hidle hmark
  · obtain ⟨hmark, hidle⟩ := hturn rfl
    exact blockInv_of_idle (memory_wf_writeInput bytes h.memory) h.nbits h.legal hidle hmark
  · obtain ⟨hmark, hidle⟩ := hturn rfl
    exact blockInv_issueRequest h hidle hmark
  · exact h
  · exact blockInv_resetBlock s

/-- Settles O21: by the three ways a step answers a next state. -/
theorem everyStepKeepsTheInvariant : Obligations.EveryStepKeepsTheInvariant := by
  intro s t h hstep
  rcases step_cases hstep with ⟨-, rfl⟩ | ⟨m, rest, ht, hm⟩ | ⟨i, ht, -, hlen, rfl⟩
  · exact h
  · exact blockInv_hostMove (blockInv_setHost h rest s.seen) (idle_of_turn_eq_host (s := s) ht) hm
  · exact blockInv_answered h i hlen (turn_eq_block_iff.mp ht).1

/-- Settles O20: after reset nothing is in flight, no mark stands and there is no response. -/
theorem resetMeetsTheInvariant : Obligations.ResetMeetsTheInvariant := fun maxInLen =>
  blockInv_of_idle (memory_wf_resetWith maxInLen) (Nat.zero_le _) nofun rfl rfl

/-- Under the invariant the block's turn is a transaction that is answered (10_state.md R31). -/
theorem step_of_block_of_blockInv {s : State} (h : BlockInv s) (ht : turn s = .block) :
    ∃ i, step s = .next (answered i s) := by
  obtain ⟨-, hflight, -⟩ := turn_eq_block_iff.mp ht
  obtain ⟨⟨i, hcmd⟩, hlen⟩ := requestRefusal_eq_none_iff.mp (h.accepted hflight)
  have hfetch : fetch s = .ok i := fetch_eq_ok_iff.mpr (decodeCmd_eq_ok_iff.mpr hcmd)
  exact ⟨i, (step_of_block ht hfetch).trans (exec_of_lenLegal i hlen)⟩

/-- Settles O22: of the four turns only `stopped` refuses; the invariant excludes the block's refusal. -/
theorem acceptedRequestsAreNeverRefused : Obligations.AcceptedRequestsAreNeverRefused := by
  intro s r h hstep
  cases ht : turn s with
  | idle => simp [step_of_idle ht] at hstep
  | host m rest =>
    rw [step_of_host ht] at hstep
    exact absurd hstep hostMove_ne_refused
  | block =>
    obtain ⟨i, hi⟩ := step_of_block_of_blockInv h ht
    simp [hi] at hstep
  | stopped q =>
    obtain rfl : q = r := by simpa [step_of_stopped ht] using hstep
    exact (turn_eq_stopped_iff.mp ht).1

/-! ### What the host cannot read -/

/-- The state with another one's internal registers and counter of free values, which `sameToHost` does not compare. -/
def withInternalsOf (x s : State) : State :=
  { s with acc := x.acc, nbits := x.nbits, idx := x.idx, opos := x.opos, freeCount := x.freeCount }

theorem sameToHost_iff {s u : State} : sameToHost s u ↔ withInternalsOf u s = u := Iff.rfl

@[simp] theorem turn_withInternalsOf (x s : State) : turn (withInternalsOf x s) = turn s := rfl

@[simp] theorem fetch_withInternalsOf (x s : State) : fetch (withInternalsOf x s) = fetch s := rfl

@[simp] theorem lenLegal_withInternalsOf (x s : State) : (withInternalsOf x s).lenLegal = s.lenLegal := rfl

@[simp] theorem requestRefusal_withInternalsOf (x s : State) :
    requestRefusal (withInternalsOf x s) = requestRefusal s := rfl

theorem sameToHost_withInternalsOf (x s : State) : sameToHost s (withInternalsOf x s) := rfl

theorem sameToHost_answered (i : Instr) (x s : State) :
    sameToHost (answered i s) (answered i (withInternalsOf x s)) := rfl

theorem sameToHost_issueRequest (x s : State) :
    sameToHost (issueRequest s) (issueRequest (withInternalsOf x s)) := by
  unfold issueRequest
  rw [requestRefusal_withInternalsOf]
  cases requestRefusal s <;> rfl

/-- A command reads no internal register. -/
theorem sameOutcome_exec (i : Instr) (x s : State) : sameOutcome (exec i s) (exec i (withInternalsOf x s)) := by
  rw [exec_eq, exec_eq, lenLegal_withInternalsOf]
  cases s.lenLegal with
  | true => exact sameToHost_answered i x s
  | false => rfl

theorem sameOutcome_readResponse (d : HostDatum) (x s : State) :
    sameOutcome (readResponse d s) (readResponse d (withInternalsOf x s)) := by
  cases h : s.respValid with
  | true =>
    rw [readResponse_of_valid d h, readResponse_of_valid d (s := withInternalsOf x s) h]
    rfl
  | false =>
    rw [readResponse_of_invalid d h, readResponse_of_invalid d (s := withInternalsOf x s) h]
    rfl

theorem sameOutcome_readOutByte (j : Nat) (x s : State) :
    sameOutcome (readOutByte j s) (readOutByte j (withInternalsOf x s)) := by
  rcases Nat.lt_or_ge j s.outBuf.length with hj | hj
  · have hb := List.getElem?_eq_getElem hj
    rw [readOutByte_of_getElem? hb, readOutByte_of_getElem? (s := withInternalsOf x s) hb]
    exact sameOutcome_readResponse _ x s
  · rw [readOutByte_of_length_le hj, readOutByte_of_length_le (s := withInternalsOf x s) hj]
    show sameOutcome _ (if s.respValid then _ else _)
    cases s.respValid <;> rfl

/-- A host move reads no internal register. -/
theorem sameOutcome_hostMove (m : HostMove) (x s : State) :
    sameOutcome (hostMove m s) (hostMove m (withInternalsOf x s)) := by
  cases m with
  | issue => exact sameToHost_issueRequest x s
  | readStatus => exact sameOutcome_readResponse _ x s
  | readOutLen => exact sameOutcome_readResponse _ x s
  | readErrByte => exact sameOutcome_readResponse _ x s
  | readErrPos => exact sameOutcome_readResponse _ x s
  | readOut j => exact sameOutcome_readOutByte j x s
  | _ => rfl

/-- Settles O29: both states have the same turn and the same CMD, and neither a host move nor a command reads an
internal register. -/
theorem hostCannotObserveInternalRegisters : Obligations.HostCannotObserveInternalRegisters := by
  intro s u h
  rw [← sameToHost_iff.mp h]
  have hturn := turn_withInternalsOf u s
  cases ht : turn s with
  | idle =>
    rw [step_of_idle ht, step_of_idle (hturn.trans ht)]
    exact sameToHost_withInternalsOf u s
  | stopped r =>
    rw [step_of_stopped ht, step_of_stopped (hturn.trans ht)]
    rfl
  | host m rest =>
    rw [step_of_host ht, step_of_host (hturn.trans ht)]
    exact sameOutcome_hostMove m u { s with host := rest }
  | block =>
    cases hf : fetch s with
    | ok i =>
      rw [step_of_block ht hf, step_of_block (hturn.trans ht) hf]
      exact sameOutcome_exec i u s
    | error r =>
      simp only [step, hturn, ht, fetch_withInternalsOf, hf]
      rfl

/-- Settles O27: a command's response is `answer` of its input. -/
theorem responseDependsOnTheRequestAlone : Obligations.ResponseDependsOnTheRequestAlone := by
  intro i s u hmax hlen hinput
  have hlegal : LegalLength u ↔ LegalLength s := by simp only [LegalLength, hmax, hlen]
  constructor
  · intro hs
    refine ⟨answered i s, answered i u, exec_of_lenLegal i (legalLength_iff.mp hs),
      exec_of_lenLegal i (legalLength_iff.mp (hlegal.mpr hs)), ?_⟩
    rw [answered_visibleResponse, answered_visibleResponse, hinput]
  · intro hs
    have refused {v : State} (hv : ¬LegalLength v) : exec i v = .refused .inputTooLong :=
      exec_eq_refused_iff.mpr ⟨by simpa [legalLength_iff] using hv, rfl⟩
    exact ⟨refused hs, refused (hlegal.not.mpr hs)⟩

/-! ### The handshake -/

/-- Settles O7: of all a step can do, only a transaction sets RESP_VALID. -/
theorem respValidFollowsTheHandshake : Obligations.RespValidFollowsTheHandshake := by
  refine ⟨fun _ => rfl, ?issue, ?response, ?raised, fun s hs => by simp [State.visibleResponse, hs]⟩
  case issue =>
    intro s rest ht
    exact ⟨_, step_of_host ht, issueRequest_respValid _⟩
  case response =>
    intro i s hlegal
    exact ⟨answered i s, exec_of_lenLegal i (legalLength_iff.mp hlegal), rfl, rfl⟩
  case raised =>
    intro s t hs hstep ht
    rcases step_cases hstep with ⟨-, rfl⟩ | ⟨m, rest, -, hm⟩ | ⟨i, -, hf, hlen, rfl⟩
    · simp [hs] at ht
    · simp [respValid_of_hostMove_eq_next (by exact hs) hm] at ht
    · exact ⟨i, hf, exec_of_lenLegal i hlen⟩

/-- The accepted requests, by their command words (30_encoding.md R61, R65). -/
theorem requestRefusal_eq_none_iff_words {s : State} :
    requestRefusal s = none ↔ (s.cmd = 0x01#8 ∨ s.cmd = 0x02#8) ∧ LegalLength s := by
  rw [requestRefusal_eq_none_iff, legalLength_iff]
  refine and_congr_left fun _ => ⟨?_, ?_⟩
  · rintro ⟨_ | _, h⟩
    · exact .inl h
    · exact .inr h
  · rintro (h | h)
    · exact ⟨.encode, h⟩
    · exact ⟨.decode, h⟩

/-- A request is refused for its command word or its length only. -/
theorem requestRefusal_ne_notModelled (s : State) (name : String) : requestRefusal s ≠ some (.notModelled name) := by
  unfold requestRefusal fetch
  cases decodeCmd s.cmd <;> cases s.lenLegal <;> simp

/-- Settles O8: the issue step by its two cases. -/
theorem issueAcceptsOrMarks : Obligations.IssueAcceptsOrMarks := by
  intro s rest hmark hidle hhost
  have ht : turn s = .host .issue rest := turn_eq_host_iff.mpr ⟨hhost, .inr (.inr ⟨hmark, hidle, by simp⟩)⟩
  have hreq : requestRefusal { s with host := rest } = requestRefusal s := requestRefusal_congr rfl rfl rfl
  rw [← requestRefusal_eq_none_iff_words, ← hreq, step_of_host ht]
  rcases issueRequest_cases { s with host := rest } with ⟨hacc, heq⟩ | ⟨r, href, heq⟩
  · exact ⟨_, congrArg Host.Outcome.next heq, rfl, rfl, rfl, fun _ => ⟨rfl, hmark⟩, fun hne => absurd hacc hne⟩
  · refine ⟨_, congrArg Host.Outcome.next heq, rfl, rfl, rfl, fun hnone => ?_, fun _ => ⟨hidle, r, rfl, ?_⟩⟩
    · simp [href] at hnone
    · rintro name rfl
      exact requestRefusal_ne_notModelled _ name href

/-- Settles O9: under the mark the turn is a host read or nobody's. -/
theorem refusalMarkIsPermanent : Obligations.RefusalMarkIsPermanent := by
  intro s r hmark
  refine ⟨?_, fun hhost => step_of_stopped (turn_eq_stopped_iff.mpr ⟨hmark, hhost⟩)⟩
  intro t hstep
  rcases step_cases hstep with ⟨-, rfl⟩ | ⟨m, rest, ht, hm⟩ | ⟨i, ht, -⟩
  · exact ⟨hmark, rfl, rfl⟩
  · have hread : m.isRead = true := by
      obtain ⟨-, ⟨-, h⟩ | ⟨h, -⟩ | ⟨h, -⟩⟩ := turn_eq_host_iff.mp ht
      · exact h
      all_goals simp [hmark] at h
    obtain ⟨d, rfl⟩ := observe_of_hostMove_eq_next hread hm
    exact ⟨hmark, rfl, rfl⟩
  · have h := (turn_eq_block_iff.mp ht).1
    simp [hmark] at h

/-- Settles O5: the turn is the block's, and CMD holds the command. -/
theorem stepRunsTheCommandInCmd : Obligations.StepRunsTheCommandInCmd := by
  intro s i hmark hflight hhost hcmd _
  refine step_of_block (turn_eq_block_iff.mpr ⟨hmark, hflight, fun m hm => ?_⟩) (fetch_eq_ok_iff.mpr hcmd)
  simpa [HostMove.mayInterrupt] using hhost m hm

/-- A table word that decodes is a CMD byte (30_encoding.md R60). -/
theorem decodeTableWord_eq_some_iff {w : Nat} {i : Instr} :
    decodeTableWord 8 w = some i ↔ w < 256 ∧ decodeCmd (BitVec.ofNat 8 w) = .ok i := by
  unfold decodeTableWord
  by_cases hw : w < 256
  · cases decodeCmd (BitVec.ofNat 8 w) <;> simp [hw]
  · simp [hw]

/-- Settles O6: the host that waits lets the block move, and CMD holds the word. -/
theorem fetchWordRunsNext : Obligations.FetchWordRunsNext := by
  intro s i w hw
  obtain ⟨hlt, hcmd⟩ := decodeTableWord_eq_some_iff.mp hw
  have ht : turn (s.withFetchWord 8 w) = .block := rfl
  have hf : fetch (s.withFetchWord 8 w) = .ok i := by
    rw [fetch_eq_ok_iff]
    simpa [State.withFetchWord, Nat.mod_eq_of_lt hlt] using hcmd
  exact ⟨step_of_block ht hf, rfl⟩

/-! ### The host's reads and writes -/

/-- Settles O10: every one of the five reads asks for RESP_VALID = 1. -/
theorem responseReadsFaultWithoutResponse : Obligations.ResponseReadsFaultWithoutResponse := by
  intro s m rest ht hs hm
  rw [step_of_host ht]
  rcases hm with rfl | rfl | ⟨j, rfl⟩ | rfl | rfl
  · exact readResponse_of_invalid _ hs
  · exact readResponse_of_invalid _ hs
  · exact readOutByte_of_invalid j hs
  · exact readResponse_of_invalid _ hs
  · exact readResponse_of_invalid _ hs

/-- Settles O11: read by read. -/
theorem readsDeliverTheRegisters : Obligations.ReadsDeliverTheRegisters := by
  intro s m rest ht
  rw [step_of_host ht]
  refine ⟨?respValid, fun hs => ⟨?status, ?outLen, ?errByte, ?errPos, ?out, ?past⟩⟩
  case respValid => rintro rfl; rfl
  case status => rintro rfl; exact readResponse_of_valid _ hs
  case outLen => rintro rfl; exact readResponse_of_valid _ hs
  case errByte => rintro rfl; exact readResponse_of_valid _ hs
  case errPos => rintro rfl; exact readResponse_of_valid _ hs
  case out =>
    rintro j b rfl hb
    exact (readOutByte_of_getElem? (by exact hb)).trans (readResponse_of_valid _ hs)
  case past =>
    rintro j rfl hj
    exact (readOutByte_of_length_le (by exact hj)).trans (if_pos hs)

/-- A byte the host writes, at an index within the capacity, reads back (20_memory.md R40). -/
theorem memReadIn_writeInput {s : State} {bytes : List Byte} {j : Nat} {b : Byte} (hb : bytes[j]? = some b)
    (hj : ∀ m, s.maxInLen = some m → j < m) : memReadIn (writeInput bytes s) j = b := by
  have hbuf : (writeInput bytes s).inBuf[j]? = some b := by
    rw [writeInput_inBuf]
    cases hm : s.maxInLen with
    | none => exact hb
    | some m => rw [← hb]; exact List.getElem?_take_of_lt (hj m hm)
  rw [memReadIn, List.getD_eq_getElem?_getD, hbuf, Option.getD_some]

/-- Settles O12: the move writes its register; of IN the capacity's bytes are kept. -/
theorem hostWritesReachTheRequestRegisters : Obligations.HostWritesReachTheRequestRegisters := by
  intro s rest
  refine ⟨fun c ht => step_of_host ht, fun n ht => step_of_host ht, fun bytes ht => ?_⟩
  exact ⟨writeInput bytes { s with host := rest }, step_of_host ht, rfl, fun j b => memReadIn_writeInput⟩

end Sys2Proof.Machine
end

section
/-! PROOFS. The family 20_memory.md: the frame of a transaction, responses that appear whole, and the request a host
writes and issues. The first part adds the registers a transaction leaves as they were. -/

namespace Sys2Proof.Machine

/-! ### The frame of a transaction -/

@[simp] theorem answered_cmd (i : Instr) (s : State) : (answered i s).cmd = s.cmd := rfl
@[simp] theorem answered_inLen (i : Instr) (s : State) : (answered i s).inLen = s.inLen := rfl
@[simp] theorem answered_inBuf (i : Instr) (s : State) : (answered i s).inBuf = s.inBuf := rfl
@[simp] theorem answered_inEpoch (i : Instr) (s : State) : (answered i s).inEpoch = s.inEpoch := rfl
@[simp] theorem answered_refusalMark (i : Instr) (s : State) : (answered i s).refusalMark = s.refusalMark := rfl
@[simp] theorem answered_host (i : Instr) (s : State) : (answered i s).host = s.host := rfl
@[simp] theorem answered_seen (i : Instr) (s : State) : (answered i s).seen = s.seen := rfl
@[simp] theorem answered_respValid (i : Instr) (s : State) : (answered i s).respValid = true := rfl
@[simp] theorem answered_inFlight (i : Instr) (s : State) : (answered i s).inFlight = false := rfl

/-- A byte of IN depends on the bytes the host has written and on the epoch of IN only. -/
theorem memReadIn_congr {s t : State} (hbuf : t.inBuf = s.inBuf) (hepoch : t.inEpoch = s.inEpoch) (j : Nat) :
    memReadIn t j = memReadIn s j := by
  rw [memReadIn, memReadIn, hbuf, hepoch]

@[simp] theorem memReadIn_answered (i : Instr) (s : State) (j : Nat) : memReadIn (answered i s) j = memReadIn s j :=
  memReadIn_congr (answered_inBuf i s) (answered_inEpoch i s) j

/-- Settles O30: a next state of a command is `answered`, whose frame is known register by register. -/
theorem commandsChangeOnlyTheResponse : Obligations.CommandsChangeOnlyTheResponse := by
  intro i s t h
  obtain ⟨-, rfl⟩ := exec_eq_next_iff.mp h
  simp

/-! ### Responses appear whole -/

theorem visibleResponse_of_invalid {s : State} (h : s.respValid = false) : s.visibleResponse = none := by
  simp [State.visibleResponse, h]

/-- Settles O16: in flight RESP_VALID is 0, and of all a step can do only the transaction sets it. -/
theorem onlyWholeResponsesAppear : Obligations.OnlyWholeResponsesAppear := by
  intro s t hinv hflight hstep
  have hs : s.respValid = false := hinv.pending hflight
  rcases step_cases hstep with ⟨-, rfl⟩ | ⟨m, rest, -, hm⟩ | ⟨i, -, hf, hlen, rfl⟩
  · exact .inl (visibleResponse_of_invalid hs)
  · exact .inl (visibleResponse_of_invalid (respValid_of_hostMove_eq_next (by exact hs) hm))
  · exact .inr ⟨i, hf, exec_of_lenLegal i hlen, answered_inFlight i s⟩

/-! ### A request, from its writes to its response -/

/-- With nothing in flight and no mark, the host makes its next move unless it waits. -/
theorem step_of_idle_host {s : State} {m : HostMove} {rest : List HostMove} (hhost : s.host = m :: rest)
    (hmark : s.refusalMark = none) (hidle : s.inFlight = false) (hm : m ≠ .await) :
    step s = hostMove m { s with host := rest } :=
  step_of_host (turn_eq_host_iff.mpr ⟨hhost, .inr (.inr ⟨hmark, hidle, fun h => hm h.1⟩)⟩)

/-- The state after the host's three writes of a request, with the moves it is still to make. -/
def withRequest (c : Byte) (bytes : List Byte) (moves : List HostMove) (s : State) : State :=
  writeInput bytes { s with cmd := c, inLen := bytes.length, host := moves }

/-- The host's three writes, one step each. -/
theorem run_requestWrites {s : State} {c : Byte} {bytes : List Byte} {moves : List HostMove}
    (hmark : s.refusalMark = none) (hidle : s.inFlight = false)
    (hhost : s.host = .writeCmd c :: .writeInLen bytes.length :: .writeIn bytes :: moves) :
    core.run 3 s = .next (withRequest c bytes moves s) := by
  let s₁ : State := { s with cmd := c, host := .writeInLen bytes.length :: .writeIn bytes :: moves }
  let s₂ : State := { s₁ with inLen := bytes.length, host := .writeIn bytes :: moves }
  calc core.run 3 s = core.run 2 s₁ := run_of_step (step_of_idle_host hhost hmark hidle nofun)
    _ = core.run 1 s₂ := run_of_step (step_of_idle_host (s := s₁) rfl hmark hidle nofun)
    _ = .next (withRequest c bytes moves s) := run_of_step (step_of_idle_host (s := s₂) rfl hmark hidle nofun)

/-- A byte sequence within the capacity is kept whole (20_memory.md R40). -/
theorem writeInput_inBuf_of_fits {s : State} {bytes : List Byte}
    (hfits : ∀ m, s.maxInLen = some m → bytes.length ≤ m) : (writeInput bytes s).inBuf = bytes := by
  rw [writeInput_inBuf]
  cases hm : s.maxInLen with
  | none => rfl
  | some m => exact List.take_of_length_le (hfits m hm)

/-- The registers hold the request the host wrote. -/
theorem withRequest_request {s : State} {bytes : List Byte} (c : Byte) (moves : List HostMove)
    (hfits : ∀ m, s.maxInLen = some m → bytes.length ≤ m) :
    (withRequest c bytes moves s).request = { cmd := c, inLen := bytes.length, bytes := bytes } := by
  have hbuf : (withRequest c bytes moves s).inBuf = bytes := writeInput_inBuf_of_fits hfits
  have hinput : (withRequest c bytes moves s).input = bytes :=
    (input_eq_inBuf (congrArg List.length hbuf)).trans hbuf
  rw [State.request, hinput]
  rfl

/-- A request of a command within the capacity is accepted (10_state.md R31). -/
theorem requestRefusal_withRequest {s : State} {bytes : List Byte} (i : Instr) (moves : List HostMove)
    (hfits : ∀ m, s.maxInLen = some m → bytes.length ≤ m) :
    requestRefusal (withRequest (encodeCmd i) bytes moves s) = none :=
  requestRefusal_eq_none_iff.mpr ⟨⟨i, rfl⟩, lenLegal_iff.mpr hfits⟩

/-- Issuing leaves the request registers as they were (10_state.md R26). -/
@[simp] theorem issueRequest_request (s : State) : (issueRequest s).request = s.request := by
  rcases issueRequest_cases s with ⟨-, heq⟩ | ⟨r, -, heq⟩ <;> rw [heq] <;> rfl

/-- A request that is accepted is in flight after its issue, and a host that waits leaves the turn to the block. -/
theorem turn_issueRequest_await {s : State} {rest : List HostMove} (hacc : requestRefusal s = none)
    (hmark : s.refusalMark = none) (hhost : s.host = .await :: rest) : turn (issueRequest s) = .block :=
  turn_eq_block_iff.mpr ⟨by simp [hacc, hmark], by simp [hacc],
    by simp [hhost, HostMove.mayInterrupt, HostMove.isRead]⟩

/-- Settles O13: three writes, the issue, and the block's transaction of what they wrote. -/
theorem hostRequestIsAnswered : Obligations.HostRequestIsAnswered := by
  intro s i bytes rest hmark hidle hfits hhost
  let v := withRequest (encodeCmd i) bytes (.await :: rest) s
  have hacc : requestRefusal v = none := requestRefusal_withRequest i _ hfits
  have hissue : core.run 4 s = .next (issueRequest v) :=
    (run_concat (run_requestWrites hmark hidle hhost)).trans
      (step_of_idle_host (s := withRequest _ bytes _ s) rfl hmark hidle nofun)
  have hrequest : (issueRequest v).request = { cmd := encodeCmd i, inLen := bytes.length, bytes := bytes } :=
    (issueRequest_request v).trans (withRequest_request _ _ hfits)
  have hfetch : fetch (issueRequest v) = .ok i :=
    fetch_eq_ok_iff.mpr (decodeCmd_eq_ok_iff.mpr (congrArg Request.cmd hrequest))
  have hexec : exec i (issueRequest v) = .next (answered i (issueRequest v)) :=
    exec_of_lenLegal i (lenLegal_iff.mpr (by simpa using lenLegal_iff.mp (requestRefusal_eq_none_iff.mp hacc).2))
  have hblock : step (issueRequest v) = exec i (issueRequest v) :=
    step_of_block (turn_issueRequest_await hacc hmark rfl) hfetch
  exact ⟨issueRequest v, answered i (issueRequest v), hissue, issueRequest_respValid v, hrequest, hexec,
    (run_concat hissue).trans (hblock.trans hexec), rfl⟩

end Sys2Proof.Machine
end

section
/-! PROOFS. The family 30_encoding.md: the command words and which of them are refused, the lengths a command
answers, and the STATUS codes that are never written. -/

namespace Sys2Proof.Machine

/-! ### The command word -/

theorem encodeCmd_encode : encodeCmd .encode = 0x01#8 := rfl
theorem encodeCmd_decode : encodeCmd .decode = 0x02#8 := rfl

/-- Settles O2: a byte decodes to a command exactly when it is the command's word. -/
theorem decodeInvertsEncode : Obligations.DecodeInvertsEncode := fun _ _ =>
  ⟨decodeCmd_eq_ok_iff.mpr rfl, fun _ => decodeCmd_eq_ok_iff.mp⟩

/-- A command's word is its table word (30_encoding.md R61). -/
theorem decodeTableWord_toNat_encodeCmd (i : Instr) : decodeTableWord 8 (encodeCmd i).toNat = some i := by
  rw [decodeTableWord_eq_some_iff, decodeCmd_eq_ok_iff]
  exact ⟨(encodeCmd i).isLt, BitVec.ofNat_toNat _ _⟩

/-- Settles O1: 0x01 and 0x02 are the words the two commands encode to, and those decode. -/
theorem commandWordsStandForTheirCommands : Obligations.CommandWordsStandForTheirCommands :=
  ⟨decodeCmd_eq_ok_iff.mpr encodeCmd_encode.symm, decodeCmd_eq_ok_iff.mpr encodeCmd_decode.symm, encodeCmd_encode,
    encodeCmd_decode, decodeTableWord_toNat_encodeCmd .encode, decodeTableWord_toNat_encodeCmd .decode⟩

/-! ### Reserved command words -/

/-- The rejected words, by their fields (30_encoding.md R62, R63). -/
theorem exists_decodeCmd_eq_error_iff_fields {c : Byte} :
    (∃ why, decodeCmd c = .error why) ↔ cmdRsvd c ≠ 0#6 ∨ cmdOp c = 0b00#2 ∨ cmdOp c = 0b11#2 := by
  have op_cases : ∀ op : BitVec 2, op = 0b00#2 ∨ op = 0b01#2 ∨ op = 0b10#2 ∨ op = 0b11#2 := by decide
  unfold decodeCmd
  by_cases hrsvd : cmdRsvd c = 0#6
  · rcases op_cases (cmdOp c) with hop | hop | hop | hop <;> simp [hrsvd, hop]
  · simp [hrsvd]

/-- The rejected words, listed by the two that are not (30_encoding.md R63). -/
theorem exists_decodeCmd_eq_error_iff_words {c : Byte} :
    (∃ why, decodeCmd c = .error why) ↔ c ≠ 0x01#8 ∧ c ≠ 0x02#8 := by
  have no_command : (∃ why, decodeCmd c = .error why) ↔ ∀ i, decodeCmd c ≠ .ok i := by
    cases decodeCmd c <;> simp
  simp only [no_command, ne_eq, decodeCmd_eq_ok_iff]
  exact ⟨fun h => ⟨h .encode, h .decode⟩, fun ⟨hencode, hdecode⟩ i =>
    match i with
    | .encode => hencode
    | .decode => hdecode⟩

/-- At its turn the block refuses a word as reserved exactly when the word does not decode: a command itself is
refused for its length only. -/
theorem step_eq_refused_reservedCommand_iff {s : State} {why : DecodeReject} (ht : turn s = .block) :
    step s = .refused (.reservedCommand why) ↔ decodeCmd s.cmd = .error why := by
  cases hd : decodeCmd s.cmd with
  | ok i => simp [step_of_block ht (fetch_eq_ok_iff.mpr hd), exec_eq_refused_iff]
  | error reject => simp [step, ht, fetch, hd]

/-- Settles O3: the refusal is the decoder's rejection, which has both descriptions. -/
theorem reservedCommandWordsAreRefused : Obligations.ReservedCommandWordsAreRefused := by
  intro s ht
  simp only [step_eq_refused_reservedCommand_iff ht]
  exact ⟨exists_decodeCmd_eq_error_iff_fields.symm, exists_decodeCmd_eq_error_iff_words.symm⟩

/-! ### IN_LEN -/

/-- Settles O4: a length above the maximum is not legal, and `exec` decides by that alone. -/
theorem legalLengthsAreAnsweredOthersRefused : Obligations.LegalLengthsAreAnsweredOthersRefused := by
  intro i s
  constructor
  · rintro ⟨m, hm, hlt⟩
    have hlen : ¬LegalLength s := fun h => Nat.not_le.mpr hlt (h m hm)
    exact exec_eq_refused_iff.mpr ⟨by simpa [legalLength_iff] using hlen, rfl⟩
  · intro hlegal
    exact ⟨answered i s, exec_of_lenLegal i (legalLength_iff.mp hlegal), answered_respValid i s, answered_inFlight i s⟩

/-! ### STATUS -/

/-- The codes of a legal response (30_encoding.md R66). -/
theorem status_of_legal {r : Response} (h : r.legal = true) : r.status = 0 ∨ r.status = 1 ∨ r.status = 2 := by
  simp only [Response.legal, Bool.and_eq_true, Bool.or_eq_true, decide_eq_true_eq] at h
  obtain ⟨-, (⟨hok, -⟩ | ⟨hsymbol, -⟩) | ⟨hpadding, -⟩⟩ := h
  · exact .inl hok
  · exact .inr (.inl hsymbol)
  · exact .inr (.inr hpadding)

/-- A host move leaves STATUS as it was; reset clears it. -/
theorem status_of_hostMove_eq_next {m : HostMove} {s t : State} (h : hostMove m s = .next t) :
    t.status = s.status ∨ t.status = 0 := by
  rcases hostMove_cases h with ⟨d, -, rfl⟩ | ⟨c, -, rfl⟩ | ⟨n, -, rfl⟩ | ⟨bytes, -, rfl⟩ | ⟨-, rfl⟩ | ⟨-, rfl⟩ |
    ⟨-, rfl⟩ <;> simp

/-- Settles O26: a command writes the code of a legal response, and no other step writes a code but reset's 0. -/
theorem statusThreeIsNeverWritten : Obligations.StatusThreeIsNeverWritten := by
  constructor
  · intro i s t h
    obtain ⟨-, rfl⟩ := exec_eq_next_iff.mp h
    exact status_of_legal (legal_answer i s.input)
  · intro s t hstep hthree
    rcases step_cases hstep with ⟨-, rfl⟩ | ⟨m, rest, -, hm⟩ | ⟨i, -, -, -, rfl⟩
    · exact hthree
    · rcases status_of_hostMove_eq_next hm with hkept | hzero
      · exact hkept.symm.trans hthree
      · simp [hzero] at hthree
    · rcases status_of_legal (legal_answer i s.input) with h | h | h <;> simp [h] at hthree

end Sys2Proof.Machine
end

section
/-! PROOFS. The family 40_alphabet_rom.md: both lookups in the terms of the alphabet's two ranges, and the ROM's
entries as exactly the bytes that have a value. -/

namespace Sys2Proof.Machine

/-! ### The lookups are inverse -/

/-- Settles O35, from the laws of the two lookups. -/
theorem lookupsAreInverse : Obligations.LookupsAreInverse := ⟨s2v_v2s, fun _ _ => v2s_of_s2v⟩

/-! ### The reverse lookup -/

theorem s2v_of_letter {c : Byte} (hlow : 0x61 ≤ c.toNat) (hhigh : c.toNat ≤ 0x7A) :
    ∃ v, s2v c = some v ∧ v.toNat = c.toNat - 0x61 :=
  ⟨_, if_pos ⟨hlow, hhigh⟩, by bv_omega⟩

theorem s2v_of_digit {c : Byte} (hlow : 0x30 ≤ c.toNat) (hhigh : c.toNat ≤ 0x35) :
    ∃ v, s2v c = some v ∧ v.toNat = c.toNat - 0x30 + 26 := by
  have not_letter : ¬(0x61#8 ≤ c ∧ c ≤ 0x7A#8) := by bv_omega
  exact ⟨_, (if_neg not_letter).trans (if_pos ⟨hlow, hhigh⟩), by bv_omega⟩

/-- Settles O33: letters, digits, and the bytes in neither range. -/
theorem reverseLookupFollowsTheAlphabet : Obligations.ReverseLookupFollowsTheAlphabet := fun _ =>
  ⟨fun ⟨hlow, hhigh⟩ => s2v_of_letter hlow hhigh, fun ⟨hlow, hhigh⟩ => s2v_of_digit hlow hhigh,
    fun hletter hdigit => s2v_eq_none_iff.mpr ⟨hletter, hdigit⟩⟩

/-! ### The forward lookup -/

/-- V2S is read off the reverse lookup: it gives the byte whose value is v. -/
theorem v2s_eq_of_s2v {c : Byte} {v : SymVal} (h : ∃ w, s2v c = some w ∧ w.toNat = v.toNat) : v2s v = c := by
  obtain ⟨w, hw, heq⟩ := h
  exact v2s_of_s2v (BitVec.eq_of_toNat_eq heq ▸ hw)

theorem toNat_v2s_of_letter {v : SymVal} (h : v.toNat ≤ 25) : (v2s v).toNat = 0x61 + v.toNat := by
  have hc : (BitVec.ofNat 8 (0x61 + v.toNat)).toNat = 0x61 + v.toNat := Nat.mod_eq_of_lt (by omega)
  obtain ⟨w, hw, hval⟩ := s2v_of_letter (c := BitVec.ofNat 8 (0x61 + v.toNat)) (by omega) (by omega)
  rw [v2s_eq_of_s2v ⟨w, hw, by omega⟩, hc]

theorem toNat_v2s_of_digit {v : SymVal} (h : 25 < v.toNat) : (v2s v).toNat = 0x30 + (v.toNat - 26) := by
  have hc : (BitVec.ofNat 8 (0x30 + (v.toNat - 26))).toNat = 0x30 + (v.toNat - 26) := Nat.mod_eq_of_lt (by omega)
  obtain ⟨w, hw, hval⟩ := s2v_of_digit (c := BitVec.ofNat 8 (0x30 + (v.toNat - 26))) (by omega) (by omega)
  rw [v2s_eq_of_s2v ⟨w, hw, by omega⟩, hc]

theorem length_rom : rom.length = 32 := rfl

/-- Every 5-bit value has an entry, so V2S never falls back on its default (40_alphabet_rom.md R81). -/
theorem rom_getElem?_toNat (v : SymVal) : rom[v.toNat]? = some (v2s v) := by
  have hv : v.toNat < rom.length := v.isLt
  rw [v2s, List.getD_eq_getElem _ _ hv, List.getElem?_eq_getElem hv]

/-- Settles O32: V2S gives the ROM's entries, and the reverse lookup says which bytes those are. -/
theorem forwardLookupFollowsTheAlphabet : Obligations.ForwardLookupFollowsTheAlphabet :=
  ⟨length_rom, fun v => ⟨rom_getElem?_toNat v, toNat_v2s_of_letter, toNat_v2s_of_digit⟩⟩

/-! ### How many bytes are symbols -/

/-- The symbols are the entries of the ROM. -/
theorem isSome_s2v_iff_mem_rom {c : Byte} : (s2v c).isSome = true ↔ c ∈ rom := by
  rw [Option.isSome_iff_exists]
  constructor
  · rintro ⟨v, hv⟩
    rw [← v2s_of_s2v hv]
    exact List.mem_of_getElem? (rom_getElem?_toNat v)
  · intro hc
    obtain ⟨k, hk, rfl⟩ := List.mem_iff_getElem.mp hc
    have hv : (BitVec.ofNat 5 k).toNat = k := Nat.mod_eq_of_lt hk
    have hentry := rom_getElem?_toNat (BitVec.ofNat 5 k)
    rw [hv, List.getElem?_eq_getElem hk, Option.some_inj] at hentry
    exact ⟨_, s2v_eq_some_iff.mpr hentry⟩

/-- No byte stands in the ROM twice. -/
theorem nodup_rom : rom.Nodup := by decide

/-- Among 0 to 255, the numbers of symbols are those of the ROM's entries, each once. -/
theorem symbolNumbers_perm_rom :
    ((List.range 256).filter fun n => (s2v (BitVec.ofNat 8 n)).isSome).Perm (rom.map BitVec.toNat) := by
  have nodup_numbers : (rom.map BitVec.toNat).Nodup := nodup_rom.map fun _ _ => BitVec.eq_of_toNat_eq
  rw [List.perm_ext_iff_of_nodup (List.nodup_range.filter _) nodup_numbers]
  intro n
  simp only [List.mem_filter, List.mem_range, isSome_s2v_iff_mem_rom, List.mem_map]
  constructor
  · rintro ⟨hn, hmem⟩
    exact ⟨_, hmem, Nat.mod_eq_of_lt hn⟩
  · rintro ⟨c, hmem, rfl⟩
    exact ⟨c.isLt, by simpa using hmem⟩

theorem count_symbols : ((List.range 256).filter fun n => (s2v (BitVec.ofNat 8 n)).isSome).length = 32 := by
  rw [symbolNumbers_perm_rom.length_eq, List.length_map, length_rom]

/-- The bytes that are no symbols are the others of the 256. -/
theorem count_nonsymbols : ((List.range 256).filter fun n => (s2v (BitVec.ofNat 8 n)).isNone).length = 224 := by
  have hsplit := List.length_eq_length_filter_add (l := List.range 256) fun n => (s2v (BitVec.ofNat 8 n)).isSome
  simp only [List.length_range, count_symbols, Option.not_isSome] at hsplit
  omega

theorem isSome_s2v_iff {c : Byte} :
    (s2v c).isSome = true ↔ (0x61#8 ≤ c ∧ c ≤ 0x7A#8) ∨ (0x30#8 ≤ c ∧ c ≤ 0x35#8) := by
  rw [Option.isSome_iff_ne_none, ne_eq, s2v_eq_none_iff, ← not_or, not_not]

/-- Settles O34: as many bytes are symbols as the ROM has entries, and uppercase letters lie outside both ranges. -/
theorem thirtyTwoBytesAreSymbols : Obligations.ThirtyTwoBytesAreSymbols :=
  ⟨count_symbols, count_nonsymbols, fun _ =>
    ⟨isSome_s2v_iff, fun huppercase => s2v_eq_none_of_padding_or_uppercase (.inr huppercase)⟩⟩

end Sys2Proof.Machine
end

section
/-! PROOFS. The family 41_encode.md: the symbols ENCODE answers, group by group, and the loop of its single pass, whose
invariant says which groups have gone out and which bits of the input ACC still holds. -/

namespace Sys2Proof.Machine

/-! ### The groups of an input, by index -/

/-- Group k of the padded input bits (41_encode.md R100). -/
def groupAt (bytes : List Byte) (k : Nat) : SymVal := BitVec.ofNat 5 (val (paddedBits bytes) (5 * k) 5)

theorem packSymbols_eq_map_groupAt (bytes : List Byte) :
    packSymbols bytes = (List.range (symbolCount bytes.length)).map fun k => v2s (groupAt bytes k) :=
  List.map_map

/-- Bit 4 − t of group k is bit 5k + t of the input, which is 0 past the input's end (R100, R102). -/
theorem getLsbD_groupAt (bytes : List Byte) {k t : Nat} (hk : k < symbolCount bytes.length) (ht : t < 5) :
    (groupAt bytes k).getLsbD (4 - t) = inputBit bytes (5 * k + t) := by
  have hget : (packGroups bytes).getD k 0 = groupAt bytes k := by simp [packGroups, groupAt, hk]
  rw [← hget, getLsbD_packGroups bytes hk ht, getD_bits8_eq_inputBit]

/-- A value with the bits of group k is group k. -/
theorem eq_groupAt {bytes : List Byte} {k : Nat} {v : SymVal} (hk : k < symbolCount bytes.length)
    (hbits : ∀ t < 5, v.getLsbD (4 - t) = inputBit bytes (5 * k + t)) : v = groupAt bytes k := by
  apply BitVec.eq_of_getLsbD_eq
  intro i hi
  have h := (hbits (4 - i) (by omega)).trans (getLsbD_groupAt bytes hk (by omega)).symm
  rwa [show 4 - (4 - i) = i by omega] at h

theorem inputBit_of_length_le {bytes : List Byte} {p : Nat} (h : 8 * bytes.length ≤ p) :
    inputBit bytes p = false := by
  have hnone : bytes[p / 8]? = none := List.getElem?_eq_none (by omega)
  simp [inputBit, List.getD_eq_getElem?_getD, hnone]

/-- A value with the last q input bits at its left end and zeros after them is the partial group (R102). -/
theorem eq_groupAt_of_partial {bytes : List Byte} {v : SymVal} {q : Nat} (hq : 8 * bytes.length % 5 = q) (hq0 : q ≠ 0)
    (hdata : ∀ t < q, v.getLsbD (4 - t) = inputBit bytes (8 * bytes.length - q + t))
    (hpad : ∀ i < 5 - q, v.getLsbD i = false) : v = groupAt bytes (8 * bytes.length / 5) := by
  have hN := symbolCount_bounds bytes.length
  apply eq_groupAt (by omega)
  intro t ht
  rcases Nat.lt_or_ge t q with h | h
  · rw [hdata t h, show 8 * bytes.length - q + t = 5 * (8 * bytes.length / 5) + t by omega]
  · rw [hpad _ (by omega), inputBit_of_length_le (by omega)]

/-! ### The response -/

theorem exec_of_legalLength {s : State} (i : Instr) (h : LegalLength s) : exec i s = .next (answered i s) :=
  exec_of_lenLegal i (legalLength_iff.mp h)

theorem answered_encode_outBuf (s : State) : (answered .encode s).outBuf = packSymbols s.input := rfl

theorem answered_encode_outLen (s : State) : (answered .encode s).outLen = symbolCount s.inLen := by
  rw [answered_outLen, answer_encode_outLen, length_input, symbolCount]

/-- Settles O36: symbol k is that of group k, whose bits are input bits. -/
theorem encodeAnswersTheSymbolsOfTheGroups : Obligations.EncodeAnswersTheSymbolsOfTheGroups := by
  intro s hlegal
  refine ⟨answered .encode s, exec_of_legalLength .encode hlegal, rfl, rfl, rfl, rfl, answered_encode_outLen s,
    (answer_outLen .encode s.input).symm, fun k hk => ⟨groupAt s.input k, ?_, fun j hj => ?_⟩⟩
  all_goals rw [answered_encode_outLen, ← length_input s] at hk
  · rw [answered_encode_outBuf, packSymbols_eq_map_groupAt, List.getElem?_map, List.getElem?_range hk, Option.map_some]
  · rw [getLsbD_groupAt s.input hk hj]
    rcases Nat.lt_or_ge (5 * k + j) (8 * s.inLen) with h | h
    · rw [decide_eq_true h, Bool.true_and]
    · rw [inputBit_of_length_le (by rwa [length_input]), Bool.and_false]

/-! ### Lengths by the residue of IN_LEN -/

/-- The table of 41_encode.md R101 and R102: q, P and N by L mod 5. -/
theorem encode_lengths_by_residue (len : Nat) :
    8 * len % 5 = [0, 3, 1, 4, 2].getD (len % 5) 0 ∧ padCount len = [0, 2, 4, 1, 3].getD (len % 5) 0 ∧
      symbolCount len = 8 * (len / 5) + [0, 2, 4, 5, 7].getD (len % 5) 0 := by
  unfold padCount symbolCount ceilDiv
  obtain h | h | h | h | h : len % 5 = 0 ∨ len % 5 = 1 ∨ len % 5 = 2 ∨ len % 5 = 3 ∨ len % 5 = 4 := by omega
  all_goals
    simp only [h, List.getD_cons_zero, List.getD_cons_succ]
    omega

/-- Settles O37: OUT_LEN is the symbol count, in both its forms. -/
theorem encodeLengthLaw : Obligations.EncodeLengthLaw := by
  intro s hlegal
  obtain ⟨-, -, hN⟩ := encode_lengths_by_residue s.inLen
  exact ⟨answered .encode s, exec_of_legalLength .encode hlegal, answered_encode_outLen s,
    (answered_encode_outLen s).trans hN⟩

/-! ### The partial group -/

/-- Where 8L is no multiple of 5, P = 5 − q (R102). -/
theorem padCount_of_partial {len : Nat} (hq : 8 * len % 5 ≠ 0) : padCount len = 5 - 8 * len % 5 := by
  unfold padCount symbolCount ceilDiv
  omega

theorem symbolCount_of_partial {len : Nat} (hq : 8 * len % 5 ≠ 0) : symbolCount len = 8 * len / 5 + 1 := by
  unfold symbolCount ceilDiv
  omega

/-- The partial group is the last q input bits, shifted left by the pad count (R102). -/
theorem ofNat_val_shiftLeft_eq_groupAt {bytes : List Byte} {q : Nat} (hq : 8 * bytes.length % 5 = q) (hq0 : q ≠ 0) :
    BitVec.ofNat 5 (val (bits8 bytes) (8 * bytes.length - q) q <<< (5 - q)) =
      groupAt bytes (8 * bytes.length / 5) := by
  apply eq_groupAt_of_partial hq hq0
  · intro t ht
    have hfits : 8 * bytes.length - q + q ≤ (bits8 bytes).length := by
      rw [length_bits8]
      omega
    rw [BitVec.getLsbD_ofNat, Nat.testBit_shiftLeft, decide_eq_true (by omega : 4 - t < 5),
      decide_eq_true (by omega : 4 - t ≥ 5 - q), Bool.true_and, Bool.true_and,
      show 4 - t - (5 - q) = q - 1 - t by omega, testBit_val hfits ht, getD_bits8_eq_inputBit]
  · intro i hi
    rw [BitVec.getLsbD_ofNat, Nat.testBit_shiftLeft, decide_eq_false (by omega : ¬i ≥ 5 - q), Bool.false_and,
      Bool.and_false]

/-- Settles O38: the counts are the table's, and the last symbol is that of the partial group. -/
theorem encodePadsTheFinalGroupOnTheRight : Obligations.EncodePadsTheFinalGroupOnTheRight := by
  intro s hlegal
  obtain ⟨hq, hP, hN⟩ := encode_lengths_by_residue s.inLen
  obtain ⟨-, hbound⟩ := symbolCount_bounds s.inLen
  rw [← answered_encode_outLen s] at hN hbound
  refine ⟨answered .encode s, 8 * s.inLen % 5, exec_of_legalLength .encode hlegal, rfl, hq, hP, hN, hbound,
    fun hq0 => ⟨padCount_of_partial hq0, ?_⟩⟩
  have hgroup := ofNat_val_shiftLeft_eq_groupAt (bytes := s.input) (by rw [length_input]) hq0
  rw [length_input] at hgroup
  rw [answered_encode_outBuf, packSymbols_eq_map_groupAt, length_input, symbolCount_of_partial hq0, List.range_succ,
    hgroup]
  simp

/-! ### The alphabet -/

/-- Settles O39: the output is the symbols of values, and DECODE answers symbols OK or INVALID_PADDING. -/
theorem encodeOutputIsSymbols : Obligations.EncodeOutputIsSymbols := by
  intro s hlegal
  refine ⟨answered .encode s, exec_of_legalLength .encode hlegal, ?_, ?_⟩
  · intro c hc
    obtain ⟨v, -, rfl⟩ := List.mem_map.mp (hc : c ∈ (packGroups s.input).map v2s)
    simp
  · intro u hlegal hinput
    have hsymbols : u.input = (packGroups s.input).map v2s := hinput
    refine ⟨answered .decode u, exec_of_legalLength .decode hlegal, ?_⟩
    rw [answered_status, hsymbols, answer_decode_map_v2s]
    split
    · show statusOk ≠ 1
      decide
    · show statusInvalidPadding ≠ 1
      decide

/-! ### The loop of the single pass -/

/-- After n bytes of a transaction of `s`: every whole group has gone out, and ACC holds the 8n mod 5 bits after the
last one (R103). -/
def afterBytes (s : State) (n : Nat) (t : State) : Prop :=
  ∃ a, holdsBits a (8 * n % 5) (8 * n) (inputBit s.input) ∧
    t = inCourse s a (8 * n % 5) n (8 * n / 5) ((List.range (8 * n / 5)).map fun k => v2s (groupAt s.input k))

theorem afterBytes_startTransaction (s : State) : afterBytes s 0 (startTransaction s) :=
  ⟨0, fun _ hj => absurd hj (by simp), startTransaction_eq_inCourse s⟩

/-- The byte read at IDX = n holds the input bits 8n to 8n + 7. -/
theorem getLsbD_memReadIn {s : State} {n t : Nat} (hn : n < s.inLen) (ht : t < 8) :
    (memReadIn s n).getLsbD (8 - 1 - t) = inputBit s.input (8 * n + t) := by
  have hbyte : s.input.getD n 0 = memReadIn s n := by
    rw [List.getD_eq_getElem _ _ (by simpa using hn), getElem_input s hn]
  rw [inputBit, show (8 * n + t) / 8 = n by omega, show (8 * n + t) % 8 = t by omega, hbyte]

/-- A round takes in the byte at IDX and then emits (R103). -/
theorem encodeRound_inCourse (s : State) (a : BitVec 12) (nb ix op : Nat) (out : List Byte) :
    encodeRound (inCourse s a nb ix op out) =
      emitSymbols 3 (inCourse s ((a <<< 8) ||| (memReadIn s ix).setWidth 12) (nb + 8) (ix + 1) op out) := by
  simp only [encodeRound, memReadIn_inCourse, inCourse_acc, inCourse_idx]
  simp only [inCourse, BitVec.ofNat_add]
  rfl

/-- A round of the loop goes on by a byte: it holds 8 more bits and emits the groups they complete. -/
theorem afterBytes_encodeRound {s t : State} {n : Nat} (h : afterBytes s n t) (hn : n < s.inLen) :
    afterBytes s (n + 1) (encodeRound t) := by
  obtain ⟨a, ha, rfl⟩ := h
  have hheld := holdsBits_take ha (fun t ht => getLsbD_memReadIn hn ht) (by omega) (by omega)
  refine ⟨_, holdsBits_mono hheld (by omega), ?_⟩
  rw [encodeRound_inCourse, emitSymbols_two (by omega) (by simp) fun k => v2s (groupAt s.input (8 * n / 5 + k))]
  · rw [show (8 * n % 5 + 8) % 5 = 8 * (n + 1) % 5 by omega,
      show 8 * (n + 1) / 5 = 8 * n / 5 + (8 * n % 5 + 8) / 5 by omega, List.range_add, List.map_append, List.map_map]
    rfl
  · intro k hk
    have hN := symbolCount_bounds s.inLen
    congr 1
    apply eq_groupAt (by rw [length_input]; omega)
    intro t ht
    rw [holdsBits_field hheld (by omega) (by omega) ht,
      show 8 * n + 8 - (8 * n % 5 + 8 - 5 * k - 5) - 5 + t = 5 * (8 * n / 5 + k) + t by omega]

theorem afterBytes_encodeRounds {s : State} (rounds : Nat) {t : State} {n : Nat} (h : afterBytes s n t)
    (hn : n + rounds ≤ s.inLen) : afterBytes s (n + rounds) (encodeRounds rounds t) := by
  induction rounds generalizing n t with
  | zero => exact h
  | succ rounds ih =>
    have hmore : t.idx < t.inLen := by
      obtain ⟨a, -, rfl⟩ := h
      rw [inCourse_idx, inCourse_inLen]
      omega
    rw [encodeRounds, if_pos hmore, show n + (rounds + 1) = n + 1 + rounds by omega]
    exact ih (afterBytes_encodeRound h (by omega)) (by omega)

/-- The loop, from the start of the transaction on. -/
theorem afterBytes_of_le {s : State} {n : Nat} (hn : n ≤ s.inLen) :
    afterBytes s n (encodeRounds n (startTransaction s)) := by
  simpa using afterBytes_encodeRounds n (afterBytes_startTransaction s) (by omega)

/-- Settles O41: the loop's invariant `afterBytes`, register by register. -/
theorem encodeLoopHoldsItsInvariants : Obligations.EncodeLoopHoldsItsInvariants := by
  intro s n hn
  obtain ⟨a, ha, ht⟩ := afterBytes_of_le hn
  rw [ht, inCourse_nbits _ _ _ _ _ (by omega)]
  exact ⟨rfl, rfl, by omega, rfl, ha⟩

/-! ### The end of the single pass -/

/-- The final partial group goes out as the bits held, shifted to the left end (R103). -/
theorem emitPartial_inCourse {s : State} {a : BitVec 12} {nb ix op : Nat} {out : List Byte} (hnb : nb < 16)
    (hl : out.length = op) :
    emitPartial (inCourse s a nb ix op out) =
      if 0 < nb then inCourse s a nb ix (op + 1) (out ++ [v2s ((a <<< (5 - nb)).setWidth 5)])
      else inCourse s a nb ix op out := by
  have hwrite (v : Byte) : memWriteOut op v (inCourse s a nb ix op out) = inCourse s a nb ix op (out ++ [v]) := by
    subst hl
    simp [memWriteOut, inCourse]
  simp only [emitPartial, inCourse_nbits s a ix op out hnb, inCourse_opos, inCourse_acc, hwrite]
  rfl

/-- The bits ACC holds at the end, shifted to the left end of a group, are the partial group (R102, R103). -/
theorem setWidth_shiftLeft_eq_groupAt {bytes : List Byte} {a : BitVec 12} {q : Nat} (hq : 8 * bytes.length % 5 = q)
    (hq0 : q ≠ 0) (ha : holdsBits a q (8 * bytes.length) (inputBit bytes)) :
    (a <<< (5 - q)).setWidth 5 = groupAt bytes (8 * bytes.length / 5) := by
  apply eq_groupAt_of_partial hq hq0
  · intro t ht
    rw [BitVec.getLsbD_setWidth, BitVec.getLsbD_shiftLeft, decide_eq_true (by omega : 4 - t < 5),
      decide_eq_true (by omega : 4 - t < 12), decide_eq_false (by omega : ¬4 - t < 5 - q), Bool.not_false,
      Bool.true_and, Bool.true_and, Bool.true_and, ha (4 - t - (5 - q)) (by omega),
      show 8 * bytes.length - 1 - (4 - t - (5 - q)) = 8 * bytes.length - q + t by omega]
  · intro i hi
    simp [BitVec.getLsbD_shiftLeft, hi]

/-- The single pass ends with the symbols of R100 in OUT, and OPOS their number. -/
theorem emitPartial_encodeRounds (s : State) :
    ∃ a, emitPartial (encodeRounds s.inLen (startTransaction s)) =
      inCourse s a (8 * s.inLen % 5) s.inLen (symbolCount s.inLen) (packSymbols s.input) := by
  obtain ⟨a, ha, ht⟩ := afterBytes_of_le (Nat.le_refl s.inLen)
  refine ⟨a, ?_⟩
  rw [ht, emitPartial_inCourse (by omega) (by simp), packSymbols_eq_map_groupAt, length_input]
  split
  · have hq : 8 * s.inLen % 5 ≠ 0 := by omega
    have hgroup := setWidth_shiftLeft_eq_groupAt (bytes := s.input) (by rw [length_input]) hq (by rwa [length_input])
    rw [length_input] at hgroup
    rw [hgroup, symbolCount_of_partial hq, List.range_succ, List.map_append]
    rfl
  · have hN := symbolCount_bounds s.inLen
    rw [show symbolCount s.inLen = 8 * s.inLen / 5 by omega]

/-- Settles O40: the single pass responds with the OPOS bytes of OUT, which are ENCODE's symbols. -/
theorem encodeSequenceGivesTheSameResponse : Obligations.EncodeSequenceGivesTheSameResponse := by
  intro s hlegal
  refine ⟨answered .encode s, exec_of_legalLength .encode hlegal, ?_, rfl⟩
  obtain ⟨a, hend⟩ := emitPartial_encodeRounds s
  have hall : (packSymbols s.input).take (symbolCount s.inLen) = packSymbols s.input :=
    List.take_of_length_le (by simp)
  simp only [encodeSequence, hend, respondOk, inCourse_opos, inCourse_outBuf, hall, writeResponse_visibleResponse,
    answered_visibleResponse, answer_encode]

end Sys2Proof.Machine
end

section
/-! PROOFS. The family 42_decode.md: DECODE's three outcomes on the input's bytes, its tail by residue, the loop of its
single pass, whose invariant says which bytes have gone out and which bits of the values ACC still holds, and the laws
of the two commands together. -/

namespace Sys2Proof.Machine

/-! ### Bits of values -/

/-- The low k bits of a word are 0 exactly when it is a multiple of 2 ^ k. -/
theorem toNat_mod_two_pow_eq_zero_iff {w k : Nat} {x : BitVec w} :
    x.toNat % 2 ^ k = 0 ↔ ∀ j < k, x.getLsbD j = false := by
  have hbits : x.toNat % 2 ^ k = 0 ↔ ∀ j, (x.toNat % 2 ^ k).testBit j = false :=
    ⟨fun h j => by rw [h, Nat.zero_testBit], Nat.zero_of_testBit_eq_false⟩
  simp [hbits, Nat.testBit_mod_two_pow, BitVec.getLsbD]

theorem bitsOf_injective {w : Nat} {x y : BitVec w} (h : bitsOf x = bitsOf y) : x = y := by
  apply BitVec.eq_of_getLsbD_eq
  intro i hi
  have hbit := congrArg (fun bits => bits.getD (w - 1 - i) false) h
  simp only [getD_bitsOf _ (by omega : w - 1 - i < w)] at hbit
  rwa [show w - 1 - (w - 1 - i) = i by omega] at hbit

/-- Values of w bits each can be read back from their concatenated bits. -/
theorem flatMap_bitsOf_injective {w : Nat} (hw : 0 < w) {xs ys : List (BitVec w)}
    (h : xs.flatMap bitsOf = ys.flatMap bitsOf) : xs = ys := by
  have hlen : xs.length = ys.length := by
    have := congrArg List.length h
    rw [length_flatMap_bitsOf, length_flatMap_bitsOf] at this
    exact Nat.eq_of_mul_eq_mul_left hw this
  induction xs generalizing ys with
  | nil => exact (List.length_eq_zero_iff.mp hlen.symm).symm
  | cons x xs ih =>
    cases ys with
    | nil => simp at hlen
    | cons y ys =>
      obtain ⟨hhead, htail⟩ := List.append_inj h (by simp)
      rw [bitsOf_injective hhead, ih htail (by simpa using hlen)]

theorem bits5_take (vals : List SymVal) {k : Nat} (hk : k ≤ vals.length) :
    bits5 (vals.take k) = (bits5 vals).take (5 * k) := by
  conv_rhs => rw [← List.take_append_drop k vals, bits5_append]
  exact (List.take_left' (by simp [hk])).symm

/-! ### The symbols of an input -/

/-- An input is the symbols of some values exactly when each of its bytes is a symbol (42_decode.md R121). -/
theorem exists_eq_map_v2s_iff {bytes : List Byte} :
    (∃ vals, bytes = List.map v2s vals) ↔ ∀ c ∈ bytes, s2v c ≠ none := by
  have symbol_iff (c : Byte) : s2v c ≠ none ↔ ∃ v, v2s v = c :=
    Option.ne_none_iff_exists'.trans (exists_congr fun _ => s2v_eq_some_iff.trans eq_comm)
  have hrange := Set.ext_iff.mp (Set.range_list_map v2s) bytes
  simpa only [Set.mem_range, Set.mem_ofPred_eq, symbol_iff, eq_comm (a := bytes)] using hrange

/-- DECODE reports the first byte that is no symbol (R121). -/
theorem answer_decode_of_first_invalid {bytes : List Byte} {p : Nat} {c : Byte} (hp : bytes[p]? = some c)
    (hc : s2v c = none) (hfirst : ∀ q < p, ∀ d, bytes[q]? = some d → s2v d ≠ none) :
    answer .decode bytes = errorResponse (.invalidSymbol c p) := by
  obtain ⟨hlt, hget⟩ := List.getElem?_eq_some_iff.mp hp
  have hsymbols : ∀ d ∈ bytes.take p, s2v d ≠ none := by
    intro d hd
    obtain ⟨q, hq, rfl⟩ := List.mem_take_iff_getElem.mp hd
    exact hfirst q (by omega) _ (List.getElem?_eq_getElem _)
  obtain ⟨vals, hvals⟩ := exists_eq_map_v2s_iff.mpr hsymbols
  have hlen : vals.length = p := by
    have := congrArg List.length hvals
    simp only [List.length_take, List.length_map] at this
    omega
  have hsplit : bytes = vals.map v2s ++ c :: bytes.drop (p + 1) := by
    rw [← hvals, ← hget, ← List.drop_eq_getElem_cons hlt, List.take_append_drop]
  rw [hsplit, answer_decode_invalid hc, hlen]

/-! ### The outcome by STATUS -/

@[simp] theorem okResponse_status (out : List Byte) : (okResponse out).status = 0 := rfl
@[simp] theorem errorResponse_invalidSymbol_status (c : Byte) (pos : Nat) :
    (errorResponse (.invalidSymbol c pos)).status = 1 := rfl
@[simp] theorem errorResponse_invalidPadding_status : (errorResponse .invalidPadding).status = 2 := rfl

theorem status_answer_decode_eq_zero_iff {bytes : List Byte} :
    (answer .decode bytes).status = 0 ↔ ∃ vals, bytes = List.map v2s vals ∧ leftoverVal vals = 0 := by
  constructor
  · intro h
    rcases answer_decode_cases bytes with ⟨vals, hb, hz, -⟩ | ⟨vals, -, -, ha⟩ | ⟨vals, c, rest, -, -, ha⟩
    · exact ⟨vals, hb, hz⟩
    · simp [ha] at h
    · simp [ha] at h
  · rintro ⟨vals, rfl, hz⟩
    simp [answer_decode_map_v2s, hz]

theorem status_answer_decode_eq_one_iff {bytes : List Byte} :
    (answer .decode bytes).status = 1 ↔ ∃ c ∈ bytes, s2v c = none := by
  constructor
  · intro h
    rcases answer_decode_cases bytes with ⟨vals, -, -, ha⟩ | ⟨vals, -, -, ha⟩ | ⟨vals, c, rest, hb, hc, -⟩
    · simp [ha] at h
    · simp [ha] at h
    · exact ⟨c, by simp [hb], hc⟩
  · rintro ⟨c, hmem, hc⟩
    obtain ⟨d, pos, ha⟩ := answer_decode_of_mem_invalid hmem hc
    simp [ha]

theorem status_answer_decode_eq_two_iff {bytes : List Byte} :
    (answer .decode bytes).status = 2 ↔ ∃ vals, bytes = List.map v2s vals ∧ leftoverVal vals ≠ 0 := by
  constructor
  · intro h
    rcases answer_decode_cases bytes with ⟨vals, -, -, ha⟩ | ⟨vals, hb, hz, -⟩ | ⟨vals, c, rest, -, -, ha⟩
    · simp [ha] at h
    · exact ⟨vals, hb, hz⟩
    · simp [ha] at h
  · rintro ⟨vals, rfl, hz⟩
    simp [answer_decode_map_v2s, hz]

/-- For symbols STATUS is decided by the leftover bits of their values (R123). -/
theorem status_answered_decode {s : State} {vals : List SymVal} (hinput : s.input = vals.map v2s) :
    (answered .decode s).status = if leftoverVal vals = 0 then 0 else 2 := by
  rw [answered_status, hinput, answer_decode_map_v2s]
  split <;> rfl

/-- DECODE's OK response to symbols whose leftover bits are 0 (R122). -/
theorem answer_decode_of_zero_tail {s : State} {vals : List SymVal} (hinput : s.input = vals.map v2s)
    (hz : leftoverVal vals = 0) : answer .decode s.input = okResponse (unpackBytes vals) := by
  rw [hinput, answer_decode_map_v2s, if_pos hz]

/-- OK means the symbols of some values whose leftover bits are 0, and then OUT holds the bytes of the values (R130). -/
theorem output_of_status_zero {s : State} (h : (answered .decode s).status = 0) :
    ∃ vals, s.input = vals.map v2s ∧ leftoverVal vals = 0 ∧ (answered .decode s).outBuf = unpackBytes vals := by
  obtain ⟨vals, hinput, hz⟩ := status_answer_decode_eq_zero_iff.mp h
  refine ⟨vals, hinput, hz, ?_⟩
  rw [answered_outBuf, answer_decode_of_zero_tail hinput hz]
  rfl

/-- The registers of an OK response agree on the byte count (R126). -/
theorem outLen_of_status_zero {s : State} (h : (answered .decode s).status = 0) :
    (answered .decode s).outLen = byteCount s.inLen ∧ (answered .decode s).outBuf.length = byteCount s.inLen := by
  obtain ⟨vals, hinput, -, hout⟩ := output_of_status_zero h
  have hlen : (answered .decode s).outBuf.length = byteCount s.inLen := by
    rw [hout, length_unpackBytes, length_of_input_eq hinput]
  exact ⟨(answer_outLen .decode s.input).trans hlen, hlen⟩

/-- Settles O42: the response is the error that names the first byte that is no symbol. -/
theorem decodeReportsTheFirstInvalidSymbol : Obligations.DecodeReportsTheFirstInvalidSymbol := by
  intro s p c hlegal hp hc hfirst
  have ha := answer_decode_of_first_invalid hp hc hfirst
  exact ⟨answered .decode s, exec_of_legalLength .decode hlegal, rfl, congrArg Response.status ha,
    congrArg Response.errByte ha, congrArg Response.errPos ha, congrArg Response.outLen ha, congrArg Response.out ha⟩

/-- Settles O43: a leftover bit that is 1 makes the leftover value nonzero. -/
theorem decodeRejectsNonzeroLeftoverBits : Obligations.DecodeRejectsNonzeroLeftoverBits := by
  intro s vals p hlegal hinput hlow hhigh hbit
  have hnonzero : leftoverVal vals ≠ 0 := by
    rw [ne_eq, leftoverVal_eq_zero_iff_symbolBit, length_of_input_eq hinput]
    intro h
    simp [h p hlow hhigh] at hbit
  have ha : answer .decode s.input = errorResponse .invalidPadding := by
    rw [hinput, answer_decode_map_v2s, if_neg hnonzero]
  exact ⟨answered .decode s, exec_of_legalLength .decode hlegal, rfl, congrArg Response.status ha,
    congrArg Response.errByte ha, congrArg Response.errPos ha, congrArg Response.outLen ha, congrArg Response.out ha⟩

/-! ### The bytes of values, by index -/

/-- Output byte j of some values (R122). -/
def byteAt (vals : List SymVal) (j : Nat) : Byte := BitVec.ofNat 8 (val (bits5 vals) (8 * j) 8)

theorem unpackBytes_eq_map_byteAt (vals : List SymVal) :
    unpackBytes vals = (List.range (byteCount vals.length)).map (byteAt vals) := rfl

/-- Bit 7 − t of byte j is bit 8j + t of the values (R122). -/
theorem getLsbD_byteAt (vals : List SymVal) {j t : Nat} (hj : j < byteCount vals.length) (ht : t < 8) :
    (byteAt vals j).getLsbD (7 - t) = symbolBit vals (8 * j + t) := by
  have hget : (unpackBytes vals).getD j 0 = byteAt vals j := by simp [unpackBytes_eq_map_byteAt, hj]
  rw [← hget, getLsbD_unpackBytes vals hj ht, getD_bits5_eq_symbolBit]

/-- A byte with the bits of byte j is byte j. -/
theorem eq_byteAt {vals : List SymVal} {j : Nat} {b : Byte} (hj : j < byteCount vals.length)
    (hbits : ∀ t < 8, b.getLsbD (7 - t) = symbolBit vals (8 * j + t)) : b = byteAt vals j := by
  apply BitVec.eq_of_getLsbD_eq
  intro i hi
  have h := (hbits (7 - i) (by omega)).trans (getLsbD_byteAt vals hj (by omega)).symm
  rwa [show 7 - (7 - i) = i by omega] at h

/-- Settles O44: byte j of OUT is that of the values, whose bits are theirs. -/
theorem decodeAnswersTheBytesOfTheValues : Obligations.DecodeAnswersTheBytesOfTheValues := by
  intro s vals hlegal hinput hzero
  have hlen := length_of_input_eq hinput
  have hz : leftoverVal vals = 0 := by rwa [leftoverVal_eq_zero_iff_symbolBit, hlen]
  have ha := answer_decode_of_zero_tail hinput hz
  have hstatus : (answered .decode s).status = 0 := congrArg Response.status ha
  obtain ⟨houtLen, hout⟩ := outLen_of_status_zero hstatus
  refine ⟨answered .decode s, exec_of_legalLength .decode hlegal, rfl, hstatus, congrArg Response.errByte ha,
    congrArg Response.errPos ha, houtLen, hout.trans houtLen.symm, fun j hj => ?_⟩
  rw [houtLen, ← hlen] at hj
  refine ⟨byteAt vals j, ?_, fun i hi => getLsbD_byteAt vals hj hi⟩
  have hbytes : (answered .decode s).outBuf = unpackBytes vals := congrArg Response.out ha
  rw [hbytes, unpackBytes_eq_map_byteAt, List.getElem?_map, List.getElem?_range hj, Option.map_some]

/-- Settles O45: the three outcomes by STATUS, with the leftover value said bit by bit. -/
theorem decodeAcceptsExactlyZeroTails : Obligations.DecodeAcceptsExactlyZeroTails := by
  intro s hlegal
  refine ⟨answered .decode s, exec_of_legalLength .decode hlegal, ?_, status_answer_decode_eq_one_iff, ?_⟩
  · refine status_answer_decode_eq_zero_iff.trans (exists_congr fun vals => and_congr_right fun hinput => ?_)
    rw [leftoverVal_eq_zero_iff_symbolBit, length_of_input_eq hinput]
  · refine status_answer_decode_eq_two_iff.trans (exists_congr fun vals => and_congr_right fun hinput => ?_)
    rw [ne_eq, leftoverVal_eq_zero_iff_symbolBit, length_of_input_eq hinput]
    simp

/-! ### The tail by the residue of IN_LEN -/

/-- The rows of the table of R124. -/
theorem residue_cases (n : Nat) :
    n % 8 = 0 ∨ n % 8 = 1 ∨ n % 8 = 2 ∨ n % 8 = 3 ∨ n % 8 = 4 ∨ n % 8 = 5 ∨ n % 8 = 6 ∨ n % 8 = 7 := by
  omega

/-- The table of R124 and R126: r, M, and the bits of the last symbol that land in an output byte, by n mod 8. -/
theorem decode_lengths_by_residue (n : Nat) :
    leftoverCount n = [0, 5, 2, 7, 4, 1, 6, 3].getD (n % 8) 0 ∧
      byteCount n = 5 * (n / 8) + [0, 0, 1, 1, 2, 3, 3, 4].getD (n % 8) 0 ∧
      (0 < n → 8 * byteCount n - 5 * (n - 1) = [5, 0, 3, 0, 1, 4, 0, 2].getD (n % 8) 0) := by
  unfold leftoverCount byteCount
  obtain h | h | h | h | h | h | h | h := residue_cases n
  all_goals
    simp only [h, List.getD_cons_zero, List.getD_cons_succ]
    omega

/-- Settles O46: OUT_LEN is the byte count, in both its forms. -/
theorem decodeLengthLaw : Obligations.DecodeLengthLaw := by
  intro s t hexec hstatus
  obtain ⟨-, rfl⟩ := exec_eq_next_iff.mp hexec
  obtain ⟨hM, -⟩ := outLen_of_status_zero hstatus
  obtain ⟨-, hU, -⟩ := decode_lengths_by_residue s.inLen
  exact ⟨hM, hM.trans hU⟩

/-- The leftover bits, counted from the right end of the values' bits (R123). -/
theorem leftoverVal_eq_zero_iff_last_bits (vals : List SymVal) :
    leftoverVal vals = 0 ↔ ∀ j < leftoverCount vals.length, symbolBit vals (5 * vals.length - 1 - j) = false := by
  have hn := byteCount_leftoverCount vals.length
  rw [leftoverVal_eq_zero_iff]
  simp only [getD_bits5_eq_symbolBit]
  constructor
  · intro h j hj
    exact h _ (by omega) (by omega)
  · intro h p hlow hhigh
    have hbit := h (5 * vals.length - 1 - p) (by omega)
    rwa [show 5 * vals.length - 1 - (5 * vals.length - 1 - p) = p by omega] at hbit

/-- Bit j from the right end lies in the last value for j < 5, and in the one before it for 5 ≤ j < 10. -/
theorem symbolBit_from_end {vals : List SymVal} {k j : Nat} (hk : 5 * k ≤ j) (hj : j < 5 * k + 5)
    (hlen : k < vals.length) :
    symbolBit vals (5 * vals.length - 1 - j) = (vals.getD (vals.length - (k + 1)) 0).getLsbD (j - 5 * k) := by
  rw [symbolBit, show (5 * vals.length - 1 - j) / 5 = vals.length - (k + 1) by omega,
    show 4 - (5 * vals.length - 1 - j) % 5 = j - 5 * k by omega]

/-- The leftover bits are the low bits of the last value, at most 5, and those beyond 5 are the low bits of the value
before it (R124). -/
theorem leftoverVal_eq_zero_iff_last_values (vals : List SymVal) :
    leftoverVal vals = 0 ↔
      (vals.getD (vals.length - 1) 0).toNat % 2 ^ min (leftoverCount vals.length) 5 = 0 ∧
        (vals.getD (vals.length - 2) 0).toNat % 2 ^ (leftoverCount vals.length - 5) = 0 := by
  have hn := byteCount_leftoverCount vals.length
  have hr : leftoverCount vals.length < 8 := Nat.mod_lt _ (by decide)
  rw [leftoverVal_eq_zero_iff_last_bits, toNat_mod_two_pow_eq_zero_iff, toNat_mod_two_pow_eq_zero_iff]
  constructor
  · intro h
    constructor
    · intro j hj
      rw [← h j (by omega)]
      exact (symbolBit_from_end (k := 0) (by omega) (by omega) (by omega)).symm
    · intro j hj
      rw [← h (5 + j) (by omega), symbolBit_from_end (k := 1) (by omega) (by omega) (by omega)]
      congr 1
      omega
  · rintro ⟨hlast, hprev⟩ j hj
    rcases Nat.lt_or_ge j 5 with h | h
    · exact (symbolBit_from_end (k := 0) (by omega) (by omega) (by omega)).trans (hlast j (by omega))
    · exact (symbolBit_from_end (k := 1) (by omega) (by omega) (by omega)).trans (hprev (j - 5) (by omega))

/-- The table's condition says that the leftover bits are 0 (R124). -/
theorem tailIsZero_iff (vals : List SymVal) : tailIsZero vals ↔ leftoverVal vals = 0 := by
  have hzero (v : SymVal) : v.toNat % 32 = 0 ↔ v = 0 := by bv_omega
  obtain ⟨hr, -, -⟩ := decode_lengths_by_residue vals.length
  rw [leftoverVal_eq_zero_iff_last_values, hr, tailIsZero]
  obtain h | h | h | h | h | h | h | h := residue_cases vals.length
  all_goals simp [h, hzero, Nat.mod_one, and_comm]

/-- Settles O47: the counts are the table's, and STATUS is decided by its condition. -/
theorem decodeTailFollowsTheTable : Obligations.DecodeTailFollowsTheTable := by
  intro s vals hlegal hinput
  obtain ⟨hr, hM, hdata⟩ := decode_lengths_by_residue s.inLen
  refine ⟨hr, hM, hdata, answered .decode s, exec_of_legalLength .decode hlegal, ?_, ?_⟩
  all_goals rw [tailIsZero_iff]
  · intro hz
    have hstatus : (answered .decode s).status = 0 := by rw [status_answered_decode hinput, if_pos hz]
    exact ⟨hstatus, (outLen_of_status_zero hstatus).1⟩
  · intro hz
    rw [status_answered_decode hinput, if_neg hz]

/-- Settles O48: the shift that forms the phantom byte keeps the leftover value 0 or nonzero. -/
theorem phantomByteIsDropped : Obligations.PhantomByteIsDropped := by
  intro s vals hlegal hinput
  refine ⟨answered .decode s, exec_of_legalLength .decode hlegal, ?_, outLen_of_status_zero⟩
  have hphantom : val (bits5 vals) (8 * byteCount s.inLen) (leftoverCount s.inLen) = leftoverVal vals := by
    rw [leftoverVal, length_of_input_eq hinput]
  rw [hphantom, Nat.shiftLeft_eq_zero_iff, status_answered_decode hinput]
  split <;> simp [*]

/-! ### The loop of the single pass -/

/-- After n of the symbols of `vals` in a transaction of `s`: every whole byte has gone out, and ACC holds the 5n mod 8
bits after the last one (R127). -/
def afterSymbols (s : State) (vals : List SymVal) (n : Nat) (t : State) : Prop :=
  ∃ a, holdsBits a (5 * n % 8) (5 * n) (symbolBit vals) ∧
    t = inCourse s a (5 * n % 8) n (5 * n / 8) ((List.range (5 * n / 8)).map (byteAt vals))

theorem afterSymbols_startTransaction (s : State) (vals : List SymVal) : afterSymbols s vals 0 (startTransaction s) :=
  ⟨0, fun _ hj => absurd hj (by simp), startTransaction_eq_inCourse s⟩

/-- Value n holds the bits 5n to 5n + 4 of the values. -/
theorem getLsbD_getD_eq_symbolBit (vals : List SymVal) (n : Nat) {t : Nat} (ht : t < 5) :
    (vals.getD n 0).getLsbD (5 - 1 - t) = symbolBit vals (5 * n + t) := by
  rw [symbolBit, show (5 * n + t) / 5 = n by omega, show (5 * n + t) % 5 = t by omega]

/-- A round on the symbol of v takes v in and puts out a byte when it holds 8 bits (R127). -/
theorem decodeRound_inCourse {s : State} {a : BitVec 12} {nb ix op : Nat} {out : List Byte} {v : SymVal}
    (hsym : memReadIn s ix = v2s v) (hnb : nb < 8) (hl : out.length = op) :
    decodeRound (inCourse s a nb ix op out) =
      .ok (if 8 ≤ nb + 5 then
        inCourse s ((a <<< 5) ||| v.setWidth 12) (nb + 5 - 8) (ix + 1) (op + 1)
          (out ++ [(((a <<< 5) ||| v.setWidth 12) >>> (nb + 5 - 8)).setWidth 8])
      else inCourse s ((a <<< 5) ||| v.setWidth 12) (nb + 5) (ix + 1) op out) := by
  have hadd : BitVec.ofNat 4 nb + 5 = BitVec.ofNat 4 (nb + 5) := by rw [BitVec.ofNat_add]; rfl
  have hsum : (BitVec.ofNat 4 (nb + 5)).toNat = nb + 5 := Nat.mod_eq_of_lt (by omega)
  simp only [decodeRound, memReadIn_inCourse, inCourse_idx, hsym, s2v_v2s]
  simp only [inCourse, hadd, hsum]
  split
  · have hsub : BitVec.ofNat 4 (nb + 5) - 8 = BitVec.ofNat 4 (nb + 5 - 8) := by bv_omega
    have hrest : (BitVec.ofNat 4 (nb + 5 - 8)).toNat = nb + 5 - 8 := Nat.mod_eq_of_lt (by omega)
    have htake : out.take op = out := List.take_of_length_le (by omega)
    have hdrop : out.drop (op + 1) = [] := List.drop_eq_nil_of_le (by omega)
    simp only [hsub, hrest, memWriteOut, htake, hdrop]
  · rfl

/-- A round on a byte that is no symbol ends the transaction with the error (R127). -/
theorem decodeRound_of_invalid {t : State} (hc : s2v (memReadIn t t.idx) = none) :
    decodeRound t = .error (raise (.invalidSymbol (memReadIn t t.idx) t.idx) t) := by
  simp only [decodeRound, hc]

/-- A round of the loop goes on by a symbol: it holds 5 more bits and puts out the byte they complete. -/
theorem afterSymbols_decodeRound {s t : State} {vals : List SymVal} {n : Nat} (h : afterSymbols s vals n t)
    (hn : n < vals.length) (hsym : memReadIn s n = v2s (vals.getD n 0)) :
    ∃ t', decodeRound t = .ok t' ∧ afterSymbols s vals (n + 1) t' := by
  obtain ⟨a, ha, rfl⟩ := h
  have hheld := holdsBits_take ha (fun t ht => getLsbD_getD_eq_symbolBit vals n ht) (by omega) (by omega)
  refine ⟨_, decodeRound_inCourse hsym (by omega) (by simp), _, holdsBits_mono hheld (by omega), ?_⟩
  split
  · have hbyte := eq_byteAt (vals := vals) (j := 5 * n / 8) (by unfold byteCount; omega) fun t ht => by
      rw [holdsBits_field (w := 8) hheld (p := 5 * n % 8 + 5 - 8) (by omega) (by omega) ht,
        show 5 * n + 5 - (5 * n % 8 + 5 - 8) - 8 + t = 8 * (5 * n / 8) + t by omega]
    rw [hbyte, show 5 * n % 8 + 5 - 8 = 5 * (n + 1) % 8 by omega, show 5 * (n + 1) / 8 = 5 * n / 8 + 1 by omega,
      List.range_succ, List.map_append]
    rfl
  · rw [show 5 * n % 8 + 5 = 5 * (n + 1) % 8 by omega, show 5 * (n + 1) / 8 = 5 * n / 8 by omega]

/-- While the bytes of IN are the symbols of `vals`, the rounds go through them one by one, and what rounds are left go
on from there. -/
theorem decodeRounds_of_symbols {s : State} {vals : List SymVal} {rest : List Byte}
    (hinput : s.input = vals.map v2s ++ rest) (k rounds : Nat) {t : State} {n : Nat} (h : afterSymbols s vals n t)
    (hn : n + k ≤ vals.length) :
    ∃ t', afterSymbols s vals (n + k) t' ∧ decodeRounds (k + rounds) t = decodeRounds rounds t' := by
  induction k generalizing n t with
  | zero => exact ⟨t, h, by rw [Nat.zero_add]⟩
  | succ k ih =>
    have hlen : s.inLen = vals.length + rest.length := by rw [← length_input, hinput]; simp
    have hsym : memReadIn s n = v2s (vals.getD n 0) := by
      rw [← getElem_input s (by omega)]
      simp [hinput, show n < vals.length by omega]
    have hmore : t.idx < t.inLen := by
      obtain ⟨a, -, rfl⟩ := h
      rw [inCourse_idx, inCourse_inLen]
      omega
    obtain ⟨u, hround, hu⟩ := afterSymbols_decodeRound h (by omega) hsym
    obtain ⟨t', ht', hrounds⟩ := ih hu (by omega)
    refine ⟨t', by rwa [show n + (k + 1) = n + 1 + k by omega], ?_⟩
    rw [show k + 1 + rounds = k + rounds + 1 by omega, decodeRounds, if_pos hmore, hround]
    exact hrounds

/-- The loop on symbols only, from the start of the transaction on. -/
theorem afterSymbols_of_le {s : State} {vals : List SymVal} {n : Nat} (hinput : s.input = vals.map v2s)
    (hn : n ≤ vals.length) : ∃ t, decodeRounds n (startTransaction s) = .ok t ∧ afterSymbols s vals n t := by
  obtain ⟨t, ht, hrounds⟩ := decodeRounds_of_symbols (rest := []) (by rw [hinput, List.append_nil]) n 0
    (afterSymbols_startTransaction s vals) (by omega)
  exact ⟨t, hrounds, by rwa [Nat.zero_add] at ht⟩

/-- Settles O52: the loop's invariant `afterSymbols`, register by register. -/
theorem decodeLoopHoldsItsInvariants : Obligations.DecodeLoopHoldsItsInvariants := by
  intro s vals n hinput hn
  rw [← length_of_input_eq hinput] at hn
  obtain ⟨t, hrounds, a, ha, rfl⟩ := afterSymbols_of_le hinput hn
  refine ⟨_, hrounds, ?_⟩
  rw [inCourse_nbits _ _ _ _ _ (by omega)]
  exact ⟨rfl, rfl, by omega, rfl, ha⟩

/-! ### The end of the single pass -/

/-- The loop ends at the first byte that is no symbol, with the error that names it (R127). -/
theorem decodeRounds_of_invalid {s : State} {vals : List SymVal} {c : Byte} {rest : List Byte}
    (hinput : s.input = vals.map v2s ++ c :: rest) (hc : s2v c = none) :
    ∃ t, decodeRounds s.inLen (startTransaction s) = .error (raise (.invalidSymbol c vals.length) t) := by
  have hlen : s.inLen = vals.length + (rest.length + 1) := by rw [← length_input, hinput]; simp
  obtain ⟨t, ⟨a, -, ht⟩, hrounds⟩ := decodeRounds_of_symbols hinput vals.length (rest.length + 1)
    (afterSymbols_startTransaction s vals) (by omega)
  have hidx : t.idx = vals.length := by rw [ht, inCourse_idx, Nat.zero_add]
  have hmore : t.idx < t.inLen := by rw [hidx, ht, inCourse_inLen]; omega
  have hread : memReadIn t t.idx = c := by
    rw [hidx, ht, memReadIn_inCourse, ← getElem_input s (by omega)]
    simp [hinput]
  have hround := decodeRound_of_invalid (t := t) (by rwa [hread])
  rw [hread, hidx] at hround
  exact ⟨t, by rw [hlen, hrounds, decodeRounds, if_pos hmore, hround]⟩

/-- With symbols only, the check of ACC's low bits is that of the leftover bits, and OUT holds the bytes of R122. -/
theorem decodeSequence_of_symbols {s : State} {vals : List SymVal} (hinput : s.input = vals.map v2s) :
    (decodeSequence s).visibleResponse =
      some (if leftoverVal vals = 0 then okResponse (unpackBytes vals) else errorResponse .invalidPadding) := by
  obtain ⟨t, hrounds, a, ha, rfl⟩ := afterSymbols_of_le hinput (Nat.le_refl _)
  have hheld : a.toNat % 2 ^ (5 * vals.length % 8) = 0 ↔ leftoverVal vals = 0 := by
    rw [toNat_mod_two_pow_eq_zero_iff, leftoverVal_eq_zero_iff_last_bits]
    exact forall₂_congr fun j hj => by rw [ha j hj]
  have hcheck : (0 < 5 * vals.length % 8 ∧ a.toNat % 2 ^ (5 * vals.length % 8) ≠ 0) ↔ leftoverVal vals ≠ 0 := by
    rw [ne_eq, hheld]
    exact ⟨And.right, fun h => ⟨Nat.pos_of_ne_zero (mt leftoverVal_of_leftoverCount h), h⟩⟩
  have hall : (unpackBytes vals).take (byteCount vals.length) = unpackBytes vals :=
    List.take_of_length_le (by simp)
  have hnbits := inCourse_nbits s a vals.length (5 * vals.length / 8)
    ((List.range (5 * vals.length / 8)).map (byteAt vals)) (by omega : 5 * vals.length % 8 < 16)
  simp only [decodeSequence, ← length_of_input_eq hinput, hrounds, hnbits, inCourse_acc, hcheck]
  by_cases hz : leftoverVal vals = 0
  · rw [if_neg (not_not_intro hz), if_pos hz, respondOk, writeResponse_visibleResponse]
    exact congrArg (some <| okResponse ·) hall
  · rw [if_pos hz, if_neg hz]
    rfl

/-- The single pass gives the response of R120 to any input. -/
theorem decodeSequence_visibleResponse (s : State) :
    (decodeSequence s).visibleResponse = some (answer .decode s.input) := by
  by_cases hsymbols : ∃ vals, s.input = List.map v2s vals
  · obtain ⟨vals, hinput⟩ := hsymbols
    rw [decodeSequence_of_symbols hinput, hinput, answer_decode_map_v2s]
  · rcases answer_decode_cases s.input with ⟨vals, hinput, -, -⟩ | ⟨vals, hinput, -, -⟩ |
      ⟨vals, c, rest, hinput, hc, ha⟩
    · exact absurd ⟨vals, hinput⟩ hsymbols
    · exact absurd ⟨vals, hinput⟩ hsymbols
    · obtain ⟨t, hrounds⟩ := decodeRounds_of_invalid hinput hc
      simp only [decodeSequence, hrounds, raise, writeResponse_visibleResponse, ha]

theorem respValid_of_visibleResponse {s : State} {r : Response} (h : s.visibleResponse = some r) :
    s.respValid = true := by
  by_contra hnot
  simp [visibleResponse_of_invalid (Bool.eq_false_of_not_eq_true hnot)] at h

/-- Settles O51: the single pass gives DECODE's response, so it has RESP_VALID = 1. -/
theorem decodeSequenceGivesTheSameResponse : Obligations.DecodeSequenceGivesTheSameResponse := fun s hlegal =>
  ⟨answered .decode s, exec_of_legalLength .decode hlegal,
    (decodeSequence_visibleResponse s).trans (answered_visibleResponse .decode s).symm,
    respValid_of_visibleResponse (decodeSequence_visibleResponse s)⟩

/-! ### The laws of the two commands together -/

/-- The symbols of an input hold its bytes, and fewer than 8 bits more. -/
theorem byteCount_symbolCount (len : Nat) : byteCount (symbolCount len) = len := by
  have := symbolCount_bounds len
  unfold byteCount
  omega

/-- Unpacking the groups of an input gives it back (R128, law 1). -/
theorem unpackBytes_packGroups (bytes : List Byte) : unpackBytes (packGroups bytes) = bytes := by
  apply flatMap_bitsOf_injective (w := 8) (by decide)
  calc bits8 (unpackBytes (packGroups bytes))
      = (paddedBits bytes).take (8 * bytes.length) := by
        rw [bits8_unpackBytes, bits5_packGroups, length_packGroups, byteCount_symbolCount]
    _ = bits8 bytes := List.take_left' (length_bits8 bytes)

/-- The leftover bits of the groups of an input are pad bits (R128, law 1). -/
theorem leftoverVal_packGroups (bytes : List Byte) : leftoverVal (packGroups bytes) = 0 := by
  rw [leftoverVal_eq_zero_iff]
  intro p hlow _
  rw [length_packGroups, byteCount_symbolCount] at hlow
  rw [bits5_packGroups, getD_paddedBits, getD_bits8_eq_inputBit, inputBit_of_length_le hlow]

/-- Settles O53: ENCODE's symbols are those of the input's groups, whose leftover bits are 0 and whose bytes are the
input. -/
theorem decodeOfEncodeIsTheInput : Obligations.DecodeOfEncodeIsTheInput := by
  intro s u hs hu
  refine ⟨answered .encode s, exec_of_legalLength .encode hs, fun hinput => ?_⟩
  have hsymbols : u.input = (packGroups s.input).map v2s := hinput
  have ha : answer .decode u.input = okResponse s.input := by
    rw [answer_decode_of_zero_tail hsymbols (leftoverVal_packGroups s.input), unpackBytes_packGroups]
  exact ⟨answered .decode u, exec_of_legalLength .decode hu, congrArg Response.status ha,
    (congrArg Response.outLen ha).trans (length_input s), congrArg Response.out ha⟩

/-- With a leftover value of 0 the bits of the values are those of their bytes, then zeros (R123). -/
theorem bits5_of_zero_tail {vals : List SymVal} (hz : leftoverVal vals = 0) :
    bits5 vals = bits8 (unpackBytes vals) ++ List.replicate (leftoverCount vals.length) false := by
  have hn := byteCount_leftoverCount vals.length
  have hlen : ((bits5 vals).drop (8 * byteCount vals.length)).length = leftoverCount vals.length := by
    rw [List.length_drop, length_bits5]
    omega
  have hzeros : (bits5 vals).drop (8 * byteCount vals.length) = List.replicate (leftoverCount vals.length) false := by
    rw [leftoverVal, val, List.take_of_length_le (by omega), natOfBits_eq_zero_iff] at hz
    exact List.eq_replicate_iff.mpr ⟨hlen, hz⟩
  rw [← hzeros, bits8_unpackBytes, List.take_append_drop]

/-- Packing the bytes of values with leftover bits 0 gives back as many of the values as the bytes need symbols (R128,
laws 2 and 3). -/
theorem packGroups_unpackBytes {vals : List SymVal} (hz : leftoverVal vals = 0) :
    packGroups (unpackBytes vals) = vals.take (symbolCount (byteCount vals.length)) := by
  obtain ⟨hlow, hhigh⟩ := symbolCount_bounds (byteCount vals.length)
  have hn := byteCount_leftoverCount vals.length
  apply flatMap_bitsOf_injective (w := 5) (by decide)
  calc bits5 (packGroups (unpackBytes vals))
      = bits8 (unpackBytes vals) ++ List.replicate (padCount (byteCount vals.length)) false := by
        rw [bits5_packGroups, paddedBits, length_unpackBytes]
    _ = (bits5 vals).take (5 * symbolCount (byteCount vals.length)) := by
        rw [bits5_of_zero_tail hz, List.take_append, List.take_of_length_le (by simpa using hlow), List.take_replicate,
          length_bits8, length_unpackBytes, ← padCount, Nat.min_eq_left (by unfold padCount; omega)]
    _ = bits5 (vals.take (symbolCount (byteCount vals.length))) := (bits5_take vals (by omega)).symm

/-- ENCODE of the output of an accepted DECODE answers OK with the input's symbols, as many as the output needs (R128,
laws 2 and 3). -/
theorem encode_of_decode {s t u : State} (hexec : exec .decode s = .next t) (hstatus : t.status = 0)
    (hlegal : LegalLength u) (hinput : u.input = t.outBuf) :
    ∃ w, exec .encode u = .next w ∧ w.status = 0 ∧ w.outBuf = s.input.take (symbolCount (byteCount s.inLen)) := by
  obtain ⟨-, rfl⟩ := exec_eq_next_iff.mp hexec
  obtain ⟨vals, hvals, hz, hout⟩ := output_of_status_zero hstatus
  refine ⟨answered .encode u, exec_of_legalLength .encode hlegal, rfl, ?_⟩
  rw [answered_encode_outBuf, packSymbols, hinput, hout, packGroups_unpackBytes hz, hvals, List.map_take,
    length_of_input_eq hvals]

/-- Settles O54: at these lengths the output needs as many symbols as the input has. -/
theorem encodeOfDecodeAtCanonicalLengths : Obligations.EncodeOfDecodeAtCanonicalLengths := by
  intro s t u hexec hstatus hresidue hlegal hinput
  have hcount : symbolCount (byteCount s.inLen) = s.inLen := by
    simp only [List.mem_cons, List.not_mem_nil, or_false] at hresidue
    unfold symbolCount ceilDiv byteCount
    omega
  obtain ⟨w, hw, hok, hout⟩ := encode_of_decode hexec hstatus hlegal hinput
  exact ⟨w, hw, hok, by rw [hout, hcount, List.take_of_length_le (by simp)]⟩

/-- Settles O55: at these lengths the output needs one symbol less than the input has. -/
theorem encodeOfDecodeAtOtherLengths : Obligations.EncodeOfDecodeAtOtherLengths := by
  intro s t u hexec hstatus hresidue hlegal hinput
  have hcount : symbolCount (byteCount s.inLen) = s.inLen - 1 := by
    simp only [List.mem_cons, List.not_mem_nil, or_false] at hresidue
    unfold symbolCount ceilDiv byteCount
    omega
  obtain ⟨w, hw, hok, hout⟩ := encode_of_decode hexec hstatus hlegal hinput
  exact ⟨w, hw, hok, by rw [hout, hcount, List.dropLast_eq_take, length_input]⟩

end Sys2Proof.Machine
end

section
/-! PROOFS. The family 60_exceptions.md: which steps fault, what an error records, the response to a request issued
again, a block that waits, and blocks side by side in a bank. -/

namespace Sys2Proof.Machine

/-! ### Faults -/

theorem readResponse_eq_fault_iff {d : HostDatum} {s : State} {f : Fault} :
    readResponse d s = .fault f ↔ f = .responseNotValid ∧ s.respValid = false := by
  cases hs : s.respValid with
  | true => simp [readResponse_of_valid d hs]
  | false => simp [readResponse_of_invalid d hs, eq_comm]

/-- A read of OUT faults for want of a response, or else of the byte (10_state.md R32, notes/assumptions/8.md). -/
theorem readOutByte_eq_fault_iff {j : Nat} {s : State} {f : Fault} :
    readOutByte j s = .fault f ↔ (f = .responseNotValid ∧ s.respValid = false) ∨
      (f = .outIndexOutOfRange ∧ s.respValid = true ∧ s.outBuf.length ≤ j) := by
  rcases Nat.lt_or_ge j s.outBuf.length with hj | hj
  · rw [readOutByte_of_getElem? (List.getElem?_eq_getElem hj), readResponse_eq_fault_iff]
    simp [Nat.not_le.mpr hj]
  · rw [readOutByte_of_length_le hj]
    cases s.respValid <;> simp [hj, eq_comm]

/-- Which host moves fault, and why. -/
theorem hostMove_eq_fault {m : HostMove} {s : State} {f : Fault} (h : hostMove m s = .fault f) :
    m.isRead = true ∧ ((f = .responseNotValid ∧ s.respValid = false ∧ m ≠ .readRespValid) ∨
      (f = .outIndexOutOfRange ∧ s.respValid = true ∧ ∃ j, m = .readOut j ∧ s.outBuf.length ≤ j)) := by
  cases m with
  | readStatus => exact ⟨rfl, .inl (and_assoc.mp ⟨readResponse_eq_fault_iff.mp h, nofun⟩)⟩
  | readOutLen => exact ⟨rfl, .inl (and_assoc.mp ⟨readResponse_eq_fault_iff.mp h, nofun⟩)⟩
  | readErrByte => exact ⟨rfl, .inl (and_assoc.mp ⟨readResponse_eq_fault_iff.mp h, nofun⟩)⟩
  | readErrPos => exact ⟨rfl, .inl (and_assoc.mp ⟨readResponse_eq_fault_iff.mp h, nofun⟩)⟩
  | readOut j =>
    rcases readOutByte_eq_fault_iff.mp h with ⟨hf, hs⟩ | ⟨hf, hs, hj⟩
    · exact ⟨rfl, .inl ⟨hf, hs, nofun⟩⟩
    · exact ⟨rfl, .inr ⟨hf, hs, j, rfl, hj⟩⟩
  | _ => cases h

/-- The block's turn ends with a next state or a refusal (60_exceptions.md R153). -/
theorem step_of_block_ne_fault {s : State} {f : Fault} (ht : turn s = .block) : step s ≠ .fault f := by
  cases hf : fetch s with
  | ok i =>
    rw [step_of_block ht hf]
    exact exec_ne_fault
  | error r => simp [step, ht, hf]

/-- Settles O23: of the four turns only a host move faults, and of those only a read. -/
theorem onlyHostReadsFault : Obligations.OnlyHostReadsFault := by
  refine ⟨fun i s f => exec_ne_fault, fun s f hstep => ?_⟩
  cases ht : turn s with
  | idle => simp [step_of_idle ht] at hstep
  | stopped r => simp [step_of_stopped ht] at hstep
  | block => exact absurd hstep (step_of_block_ne_fault ht)
  | host m rest =>
    rw [step_of_host ht] at hstep
    obtain ⟨hread, hwhy⟩ := hostMove_eq_fault hstep
    exact ⟨m, rest, (turn_eq_host_iff.mp ht).1, hread, hwhy⟩

/-! ### Errors -/

/-- Settles O49: of a command's responses only DECODE's two error responses have STATUS not 0. -/
theorem onlyDecodeRaisesErrors : Obligations.OnlyDecodeRaisesErrors := by
  intro i s t hexec hstatus
  obtain ⟨-, rfl⟩ := exec_eq_next_iff.mp hexec
  cases i with
  | encode => exact absurd rfl hstatus
  | decode =>
    rcases answer_decode_cases s.input with ⟨vals, -, -, ha⟩ | ⟨vals, hb, -, ha⟩ | ⟨vals, c, rest, hb, hc, ha⟩
    · exact absurd (congrArg Response.status ha) hstatus
    · exact ⟨rfl, rfl, congrArg Response.outLen ha, congrArg Response.out ha, .inr ⟨congrArg Response.status ha,
        congrArg Response.errByte ha, congrArg Response.errPos ha, exists_eq_map_v2s_iff.mp ⟨vals, hb⟩⟩⟩
    · have hbyte : (answered .decode s).errByte = c := congrArg Response.errByte ha
      have hpos : (answered .decode s).errPos = vals.length := congrArg Response.errPos ha
      refine ⟨rfl, rfl, congrArg Response.outLen ha, congrArg Response.out ha,
        .inl ⟨congrArg Response.status ha, ?_, ?_⟩⟩
      · rw [hbyte, hpos, hb]
        simp
      · rw [hbyte, hc]

/-! ### A request issued again -/

/-- The same request after its response is the same input (20_memory.md R40). -/
@[simp] theorem input_answered (i : Instr) (s : State) : (answered i s).input = s.input := rfl

/-- A host that issues the request of a command and waits gets the command's response in two steps. -/
theorem run_issue_await {s : State} {i : Instr} {rest : List HostMove} (hmark : s.refusalMark = none)
    (hidle : s.inFlight = false) (hcmd : decodeCmd s.cmd = .ok i) (hlen : s.lenLegal = true)
    (hhost : s.host = .issue :: .await :: rest) :
    ∃ w, core.run 2 s = .next w ∧ w.visibleResponse = some (answer i s.input) ∧ w.respValid = true := by
  let v : State := { s with host := .await :: rest }
  have hacc : requestRefusal v = none := requestRefusal_eq_none_iff.mpr ⟨⟨i, decodeCmd_eq_ok_iff.mp hcmd⟩, hlen⟩
  have hrequest : (issueRequest v).request = s.request := issueRequest_request v
  have hfetch : fetch (issueRequest v) = .ok i :=
    fetch_eq_ok_iff.mpr ((congrArg (fun r => decodeCmd r.cmd) hrequest).trans hcmd)
  have hlegal : (issueRequest v).lenLegal = true := lenLegal_iff.mpr (by simpa [v] using lenLegal_iff.mp hlen)
  have hinput : (issueRequest v).input = s.input := congrArg Request.bytes hrequest
  refine ⟨answered i (issueRequest v), ?_, by rw [answered_visibleResponse, hinput], rfl⟩
  calc core.run 2 s = core.run 1 (issueRequest v) := run_of_step (step_of_idle_host hhost hmark hidle nofun)
    _ = .next (answered i (issueRequest v)) :=
      run_of_step ((step_of_block (turn_issueRequest_await hacc hmark rfl) hfetch).trans (exec_of_lenLegal i hlegal))

/-- Settles O28: a transaction leaves the request as it was and the block idle, so its request can be issued again. -/
theorem reissuedRequestGetsTheSameResponse : Obligations.ReissuedRequestGetsTheSameResponse := by
  intro i s t rest hcmd hexec hmark hhost
  obtain ⟨hlen, rfl⟩ := exec_eq_next_iff.mp hexec
  refine ⟨answered_inFlight i s, ?_⟩
  rw [answered_visibleResponse, ← input_answered i s]
  exact run_issue_await hmark (answered_inFlight i s) hcmd hlen hhost

/-! ### A block that waits -/

/-- Settles O17: with no move, or at `await` without a response, the turn is nobody's; with one it is the host's. -/
theorem idleBlockWaitsForTheHost : Obligations.IdleBlockWaitsForTheHost := by
  intro s hmark hidle
  refine ⟨fun hhost => ?_, fun rest hhost hs => ?_, fun rest hhost hs => ?_⟩
  · exact step_of_idle (turn_eq_idle_iff.mpr ⟨hmark, hidle, .inl hhost⟩)
  · exact step_of_idle (turn_eq_idle_iff.mpr ⟨hmark, hidle, .inr ⟨hs, rest, hhost⟩⟩)
  · exact step_of_host (turn_eq_host_iff.mpr ⟨hhost, .inr (.inr ⟨hmark, hidle, by simp [hs]⟩)⟩)

/-! ### A bank of blocks -/

/-- The bank's step is the own step of the block that moves (60_exceptions.md R164). -/
theorem bankStep_of_next {i : Nat} {bank : List State} {s t : State} (hs : bank[i]? = some s)
    (hstep : step s = .next t) : bankStep i bank = .next (bank.set i t) := by
  simp only [bankStep, hs, hstep]

/-- A fault of the block that moves ends the bank's step (notes/assumptions/17.md). -/
theorem bankStep_of_fault {i : Nat} {bank : List State} {s : State} {f : Fault} (hs : bank[i]? = some s)
    (hstep : step s = .fault f) : bankStep i bank = .fault f := by
  simp only [bankStep, hs, hstep]

/-- A refusal of the block that moves ends the bank's step (notes/assumptions/17.md). -/
theorem bankStep_of_refused {i : Nat} {bank : List State} {s : State} {r : Refusal} (hs : bank[i]? = some s)
    (hstep : step s = .refused r) : bankStep i bank = .refused r := by
  simp only [bankStep, hs, hstep]

/-- Settles O31: the bank's step sets the entry of the block that moves, and setting a list's entry keeps the others. -/
theorem instancesAreIndependent : Obligations.InstancesAreIndependent := by
  intro i bank s hs
  have hi : i < bank.length := (List.getElem?_eq_some_iff.mp hs).1
  refine ⟨fun t ht => ⟨bank.set i t, bankStep_of_next hs ht, List.getElem?_set_self hi, List.length_set, ?_⟩,
    fun f => bankStep_of_fault hs, fun r => bankStep_of_refused hs⟩
  exact fun j hj => List.getElem?_set_ne hj.symm

end Sys2Proof.Machine
end

section
/-! PROOFS. The family 70_reset_and_hazards.md: the state after reset, the reset move, and a request in flight, which
is held until it is answered, however often the host polls. The first part adds, to the laws of turns, those of the
moves a host may make while a request is in flight. -/

namespace Sys2Proof.Machine

/-! ### Moves that may come before a response -/

/-- Without a mark a read or a reset is made at once, whether or not a request is in flight. -/
theorem turn_of_mayInterrupt {s : State} {m : HostMove} {rest : List HostMove} (hmark : s.refusalMark = none)
    (hhost : s.host = m :: rest) (hm : m.mayInterrupt = true) : turn s = .host m rest := by
  refine turn_eq_host_iff.mpr ⟨hhost, .inr ?_⟩
  cases hflight : s.inFlight with
  | true => exact .inl ⟨hmark, rfl, hm⟩
  | false =>
    refine .inr ⟨hmark, rfl, ?_⟩
    rintro ⟨rfl, -⟩
    cases hm

/-- While a request is in flight the host only reads or resets (70_reset_and_hazards.md R173). -/
theorem isRead_of_turn_eq_host {s : State} {m : HostMove} {rest : List HostMove} (hflight : s.inFlight = true)
    (ht : turn s = .host m rest) (hreset : m ≠ .reset) : m.isRead = true := by
  have hm : m.mayInterrupt = true := by
    by_contra hm
    have hidle := (idle_of_turn_eq_host ht (Bool.eq_false_iff.mpr hm)).2
    simp [hflight] at hidle
  simpa [HostMove.mayInterrupt, hreset] using hm

/-! ### Reset -/

/-- Settles O18: the fields of `State.resetWith`, the reads' faults without a response, and the ROM's entries. -/
theorem resetLeavesNoResponse : Obligations.ResetLeavesNoResponse := by
  intro maxInLen
  refine ⟨rfl, visibleResponse_of_invalid rfl, rfl, turn_eq_idle_iff.mpr ⟨rfl, rfl, .inl rfl⟩, fun m hm => ?_,
    length_rom, rom_getElem?_toNat⟩
  have hread : m.mayInterrupt = true := by rcases hm with rfl | rfl | ⟨j, rfl⟩ | rfl | rfl <;> rfl
  exact responseReadsFaultWithoutResponse _ m [] (turn_of_mayInterrupt rfl rfl hread) rfl hm

/-- Settles O19: the host's reset is made at once, and `resetBlock` leaves the block idle without a response. -/
theorem resetAbandonsTheRequest : Obligations.ResetAbandonsTheRequest := by
  intro s rest hmark hhost
  exact ⟨resetBlock { s with host := rest }, step_of_host (turn_of_mayInterrupt hmark hhost rfl), rfl, rfl,
    visibleResponse_of_invalid rfl, rfl, rfl, rfl⟩

/-! ### A request in flight -/

/-- Settles O15: in flight the host's moves only read, and a transaction leaves the request as it was. -/
theorem requestIsHeldInFlight : Obligations.RequestIsHeldInFlight := by
  intro s t hflight hreset hstep
  rcases step_cases hstep with ⟨-, rfl⟩ | ⟨m, rest, ht, hm⟩ | ⟨i, -, -, -, rfl⟩
  · exact ⟨rfl, rfl, rfl, rfl⟩
  · have hne : m ≠ .reset := by
      rintro rfl
      exact hreset (by rw [(turn_eq_host_iff.mp ht).1]; rfl)
    obtain ⟨d, rfl⟩ := observe_of_hostMove_eq_next (isRead_of_turn_eq_host hflight ht hne) hm
    exact ⟨rfl, rfl, rfl, rfl⟩
  · exact ⟨answered_cmd i s, answered_inLen i s, answered_inBuf i s, input_answered i s⟩

/-- Under the invariant no mark stands while a request is in flight (10_state.md R31). -/
theorem refusalMark_of_inFlight {s : State} (h : BlockInv s) (hflight : s.inFlight = true) :
    s.refusalMark = none := by
  by_contra hmark
  obtain ⟨r, hr⟩ := Option.ne_none_iff_exists'.mp hmark
  simp [(h.marked r hr).2] at hflight

/-- A poll while a request is in flight reads 0 and leaves the request in flight (notes/assumptions/5.md). -/
theorem step_of_poll {s : State} {moves : List HostMove} (h : BlockInv s) (hflight : s.inFlight = true)
    (hhost : s.host = .readRespValid :: moves) :
    step s = .next { s with host := moves, seen := s.seen ++ [.respValid false] } := by
  have ht := turn_of_mayInterrupt (refusalMark_of_inFlight h hflight) hhost rfl
  rw [← h.pending hflight]
  exact (readsDeliverTheRegisters s _ moves ht).1 rfl

/-- A host that waits leaves the turn of a request in flight to the block, which answers it. -/
theorem step_of_await {s : State} {rest : List HostMove} (h : BlockInv s) (hflight : s.inFlight = true)
    (hhost : s.host = .await :: rest) : ∃ i, step s = .next (answered i s) := by
  refine step_of_block_of_blockInv h (turn_eq_block_iff.mpr ⟨refusalMark_of_inFlight h hflight, hflight, ?_⟩)
  simp [hhost, HostMove.mayInterrupt, HostMove.isRead]

/-- Settles O14, by induction on the number of polls: each keeps the invariant and the request in flight. -/
theorem pollingHostGetsTheResponse : Obligations.PollingHostGetsTheResponse := by
  intro n
  induction n with
  | zero =>
    intro s rest h hflight hhost
    obtain ⟨i, hi⟩ := step_of_await h hflight hhost
    exact ⟨answered i s, run_of_step hi, answered_respValid i s, answered_inFlight i s, by simp⟩
  | succ n ih =>
    intro s rest h hflight hhost
    have hpoll := step_of_poll h hflight hhost
    have hinv := blockInv_setHost h (List.replicate n .readRespValid ++ .await :: rest) (s.seen ++ [.respValid false])
    obtain ⟨t, hrun, hvalid, hidle, hseen⟩ := ih _ rest hinv hflight rfl
    refine ⟨t, (run_of_step hpoll).trans hrun, hvalid, hidle, ?_⟩
    rw [hseen, List.append_assoc, List.singleton_append, ← List.replicate_succ]

end Sys2Proof.Machine
end
